-- ==== Sys2Proof/Word.lean ====
section
/-! DEFINITION. The value types of the unit: every value is an unsigned bit vector of a stated width, bit 0 the
least significant (00_scope.md R6, R7). -/

namespace Sys2Proof

/-- The operation select `req_op` (10_state.md R25). -/
abbrev Bits3 := BitVec 3

/-- An operand, and the result of a magic operation (00_scope.md R7). -/
abbrev Bits64 := BitVec 64

/-- A result, as `resp_result` carries it: the whole RESP word (30_encoding.md R61). -/
abbrev Bits128 := BitVec 128

/-- The request word REQ = {req_op, req_b, req_a} (30_encoding.md R60). -/
abbrev ReqWord := BitVec 131

end Sys2Proof
end

