-- ==== Sys2Proof/Machine/Operands.lean ====
section
/-! DEFINITION. The one operand form, a whole unsigned 64-bit field (30_encoding.md R63), and the widths a result goes
through. -/

namespace Sys2Proof.Machine

/-- `zext_128`: zeros in the new high bits (00_scope.md R7). -/
def zext128 (v : Bits64) : Bits128 :=
  v.setWidth 128

/-- A magic operand is in range when it is below 2^16 (41_morton.md R104). -/
def inRange (v : Bits64) : Bool :=
  decide (v.toNat < 2 ^ 16)

/-- Half 0 of a 128-bit result, `RESP[63:0]` (20_memory.md R41). -/
def respHalf0 (v : Bits128) : Bits64 :=
  v.extractLsb' 0 64

/-- Half 1 of a 128-bit result, `RESP[127:64]` (20_memory.md R41). -/
def respHalf1 (v : Bits128) : Bits64 :=
  v.extractLsb' 64 64

end Sys2Proof.Machine
end

