-- ==== Sys2Proof/Syntax.lean ====
section
/-! DEFINITION. The operations of the unit as data: one constructor per row of spec/opcode_table.json. -/

namespace Sys2Proof

/-- A defined request: the operation and both operand fields (30_encoding.md R60, R62). The unary operations keep
the field `b` that their request word carries, although no result depends on it (30_encoding.md R64). -/
inductive Instr where
  /-- CLMUL a, b: `op = 0` (40_clmul.md R80). -/
  | clmul (a b : Bits64)
  /-- DILATE a: `op = 1`; `b` is ignored (41_morton.md R100). -/
  | dilate (a b : Bits64)
  /-- MORTON x, y: `op = 2`; `x` is the field `a`, `y` the field `b` (41_morton.md R102, 30_encoding.md R65). -/
  | morton (x y : Bits64)
  /-- DILATE_MAGIC a: `op = 3`; `b` is ignored (41_morton.md R105). -/
  | dilateMagic (a b : Bits64)
  /-- MORTON_MAGIC x, y: `op = 4`; `x` is the field `a`, `y` the field `b` (41_morton.md R107). -/
  | mortonMagic (x y : Bits64)
  deriving DecidableEq, Repr

end Sys2Proof
end

