-- ==== Sys2Proof/Config.lean ====
section
/-! DEFINITION. What an implementation fixes (00_scope.md R5) and the free values. The parameters that some rule
reads as plain data are a record, held in State so that every statement ranges over their values; the open result
values are opaque constants, of which nothing can be proved. -/

namespace Sys2Proof.Config

/-- The platform parameters that a rule reads (00_scope.md R5; log entry 1). -/
structure Platform where
  /-- `HAS_CLMUL_UNIT`: the unit is present on the platform (10_state.md R23). -/
  hasUnit : Bool
  /-- `QUEUE_DEPTH`: the largest number of accepted requests still awaiting a response (10_state.md R28). -/
  queueDepth : Nat
  deriving DecidableEq, Repr

/-- `MAGIC_DILATE_WIDE`: the DILATE_MAGIC result when `req_a >= 2^16`, a function of the operand alone and open
(41_morton.md R105, 92_eei_decisions.md D10; log entry 4). -/
opaque magicDilateWide : Bits64 → Bits64

/-- `MAGIC_MORTON_WIDE`: the MORTON_MAGIC result when either operand is `>= 2^16`, a function of the operands alone
and open (41_morton.md R107, 92_eei_decisions.md D10; log entry 4). -/
opaque magicMortonWide : Bits64 → Bits64 → Bits64

/-- The unspecified response value of the `n`-th reserved request responded (60_exceptions.md R131,
93_implementation_defined.md U6; log entry 5). -/
opaque reservedResult : Nat → Bits128

end Sys2Proof.Config
end

