-- ==== Sys2Proof/WellFormed.lean ====
section
/-! DEFINITION. The checks on what the outside hands to the unit: instructions, assembler literals, raw request words
and platform parameters. -/

namespace Sys2Proof

/-- Every value of `a` and `b` is a defined request: no operand value is reserved (30_encoding.md R66). -/
def Instr.wf : Instr → Bool
  | .clmul _ _ => true
  | .dilate _ _ => true
  | .morton _ _ => true
  | .dilateMagic _ _ => true
  | .mortonMagic _ _ => true

/-- An assembler literal must fit in 64 bits (30_encoding.md R69). -/
def literalFits (n : Nat) : Bool :=
  decide (n < 2 ^ 64)

/-- A raw request word has 131 bits (30_encoding.md R60, R69). -/
def rawWordFits (n : Nat) : Bool :=
  decide (n < 2 ^ 131)

/-- `QUEUE_DEPTH >= 1` (00_scope.md R5). -/
def Config.Platform.wf (p : Config.Platform) : Bool :=
  decide (1 ≤ p.queueDepth)

end Sys2Proof
end

