-- ==== Sys2Proof/Decode.lean ====
section
/-! DEFINITION. The request word and its meaning as an operation (30_encoding.md R60, R62, R68), and after it the
encoder, written from the same table. -/

namespace Sys2Proof

/-- What a request word decodes to: one of the five operations, or a reserved `op` (30_encoding.md R68). -/
inductive Decoded where
  /-- A defined request. -/
  | op (i : Instr)
  /-- `op` is 5, 6 or 7 (30_encoding.md R66): no operation, rejected under this name. -/
  | reserved (op : Bits3)
  deriving DecidableEq, Repr

/-- The operation map of 30_encoding.md R62 over the fields of a request: `a` and `b` never change which operation
is chosen. -/
def decodeFields (op : Bits3) (b a : Bits64) : Decoded :=
  match op.toNat with
  | 0 => .op (.clmul a b)
  | 1 => .op (.dilate a b)
  | 2 => .op (.morton a b)
  | 3 => .op (.dilateMagic a b)
  | 4 => .op (.mortonMagic a b)
  | _ => .reserved op

/-- `REQ[130:128]` (30_encoding.md R60). -/
def opField (w : ReqWord) : Bits3 :=
  w.extractLsb' 128 3

/-- `REQ[127:64]` (30_encoding.md R60). -/
def bField (w : ReqWord) : Bits64 :=
  w.extractLsb' 64 64

/-- `REQ[63:0]` (30_encoding.md R60). -/
def aField (w : ReqWord) : Bits64 :=
  w.extractLsb' 0 64

/-- Decoding a whole request word is total (30_encoding.md R68). -/
def decode (w : ReqWord) : Decoded :=
  decodeFields (opField w) (bField w) (aField w)

/-- `{req_op, req_b, req_a}` (30_encoding.md R60). -/
def packFields (op : Bits3) (b a : Bits64) : ReqWord :=
  op ++ b ++ a

/-- The value of `op` that selects an instruction (30_encoding.md R62). -/
def opcodeOf : Instr → Bits3
  | .clmul _ _ => 0#3
  | .dilate _ _ => 1#3
  | .morton _ _ => 2#3
  | .dilateMagic _ _ => 3#3
  | .mortonMagic _ _ => 4#3

/-- The field `a` of an instruction's request (30_encoding.md R62). -/
def operandA : Instr → Bits64
  | .clmul a _ => a
  | .dilate a _ => a
  | .morton x _ => x
  | .dilateMagic a _ => a
  | .mortonMagic x _ => x

/-- The field `b` of an instruction's request (30_encoding.md R62). -/
def operandB : Instr → Bits64
  | .clmul _ b => b
  | .dilate _ b => b
  | .morton _ y => y
  | .dilateMagic _ b => b
  | .mortonMagic _ y => y

/-- The request word of an instruction (30_encoding.md R60, R62). -/
def encode (i : Instr) : ReqWord :=
  packFields (opcodeOf i) (operandB i) (operandA i)

/-- The instruction of a request of which the lowest `nbits` bits of `w` are given, the bits above them zero; a number
with a bit above bit 130 is no request word (30_encoding.md R67). -/
def decodeTableWord (nbits w : Nat) : Option Instr :=
  if rawWordFits (w % 2 ^ nbits) then
    match decode (BitVec.ofNat 131 (w % 2 ^ nbits)) with
    | .op i => some i
    | .reserved _ => none
  else none

end Sys2Proof
end

