-- ==== Sys2Proof/Machine/State.lean ====
section
/-! DEFINITION. The state of a run: the unit's one piece of state `pending` (10_state.md R28), the level of its reset
port, the host's program and the responses delivered, the bookkeeping of faults and refusals (60_exceptions.md R139),
the platform's parameters, and the events still to come. -/

namespace Sys2Proof.Machine

/-- A request as it stands in `pending` and in a program: the payload of the request port (10_state.md R28). -/
structure Request where
  op : Bits3
  a : Bits64
  b : Bits64
  deriving DecidableEq, Repr

/-- Why a run has no defined result (60_exceptions.md R139 names exactly these two). Both are safe: a run stops being
defined where the hardware goes on with a value the spec does not give. -/
inductive Fault where
  /-- Recorded at the RESPOND of a request whose `op` is 5, 6 or 7 (60_exceptions.md R131). Safe. -/
  | reservedOp (op : Bits3)
  /-- Recorded when `resp_result` is read outside a RESPOND transfer (10_state.md R27, 60_exceptions.md R139). Safe. -/
  | noResultValue
  deriving DecidableEq, Repr

/-- Why a run was refused, as the run records it: 60_exceptions.md R139 names exactly this one. -/
inductive RecordedRefusal where
  /-- Recorded at the first ACCEPT when the platform has no unit (60_exceptions.md R132). Safe: nothing is run. -/
  | noUnit
  deriving DecidableEq, Repr

/-- Why a step has no meaning: the recorded refusal of the run, or the host's own name for an instruction without a meaning,
which no run records. Both are safe: nothing is run. -/
inductive Refusal where
  /-- Answered by every event but those of the reset line once NoUnit is recorded (60_exceptions.md R132, R139). Safe. -/
  | noUnit
  /-- An instruction with no meaning yet; no arm of `exec` answers it, every instruction having its meaning. Safe. -/
  | notModelled (mnemonic : String)
  deriving DecidableEq, Repr

/-- What may happen next at the unit's ports. The spec fixes no order between these (10_state.md R29, 70_reset_and_hazards.md
R161), so the order is an input of the environment (log entry 3). -/
inductive Event where
  /-- A time in which nothing transfers: the host waits or the unit delays (10_state.md R29, 92_eei_decisions.md D13). -/
  | idle
  /-- The unit is ready to take the request the host offers: ACCEPT (10_state.md R29). -/
  | accept
  /-- The host is ready to take the oldest response: RESPOND (10_state.md R30). -/
  | respond
  /-- The RESET event: `rst` is asserted and released again (70_reset_and_hazards.md R160). -/
  | reset
  /-- `rst` is asserted and stays so (10_state.md R35). -/
  | assertRst
  /-- `rst` is released (10_state.md R35). -/
  | releaseRst
  /-- The host samples `resp_result` outside a response transfer (10_state.md R27, 60_exceptions.md R139). -/
  | sampleResult
  deriving DecidableEq, Repr

/-- The state of a run. Plain data. -/
structure State where
  /-- The parameters of the platform, fixed for a run (00_scope.md R5, 10_state.md R23). -/
  platform : Config.Platform
  /-- The level of the port `rst`: true while reset is asserted (10_state.md R25, R35). -/
  rst : Bool
  /-- The requests accepted and not yet responded, oldest first: the unit's only state (10_state.md R28). -/
  pending : List Request
  /-- The requests the host issues, in order (10_state.md R21). -/
  program : List Request
  /-- The index of the next request to issue (10_state.md R21). -/
  position : Nat
  /-- The responses delivered so far, in delivery order (10_state.md R28, 70_reset_and_hazards.md R170). -/
  out : List Bits128
  /-- The recorded fault and its program index (60_exceptions.md R139). -/
  fault : Option (Fault × Nat)
  /-- The recorded refusal and its program index (60_exceptions.md R139). -/
  refused : Option (RecordedRefusal × Nat)
  /-- The events still to come, the next one first: the environment's input (log entry 3). -/
  script : List Event
  /-- How many free values have been drawn: the model's own counter (log entry 5). -/
  freeCount : Nat
  deriving DecidableEq, Repr

/-- The state in which a run starts (10_state.md R35, R21; 70_reset_and_hazards.md R162): nothing pending, reset released,
position 0, nothing delivered, nothing recorded. The platform's parameters are the model's choice (log entry 1), the
program and the script are empty until the host loads them (log entries 2 and 3). -/
def State.reset : State where
  platform := { hasUnit := true, queueDepth := 1 }
  rst := false
  pending := []
  program := []
  position := 0
  out := []
  fault := none
  refused := none
  script := []
  freeCount := 0

end Sys2Proof.Machine
end

