-- ==== Sys2Proof/Machine/Ops.lean ====
section
/-! DEFINITION. The named operations over the state: the views of the ports, and every way in which an event changes a
field. The unit has no register, no memory and no exception entry (10_state.md R20, 20_memory.md R40, 60_exceptions.md
R135), so there is no operation for those. -/

namespace Sys2Proof.Machine

/-- The request word of a request (30_encoding.md R60). -/
def Request.word (r : Request) : ReqWord :=
  packFields r.op r.b r.a

/-- The request a word stands for (30_encoding.md R60). -/
def Request.ofWord (w : ReqWord) : Request where
  op := opField w
  a := aField w
  b := bField w

/-- What the unit reads in a request (30_encoding.md R68). -/
def Request.decoded (r : Request) : Decoded :=
  decodeFields r.op r.b r.a

/-- The outcome a step answers for a recorded refusal (60_exceptions.md R132, R139). -/
def RecordedRefusal.outcome : RecordedRefusal → Refusal
  | .noUnit => .noUnit

namespace State

/-- `req_op`, `req_a`, `req_b` while the host offers a request: the one at its position (10_state.md R21, R25). -/
def offered (s : State) : Option Request :=
  s.program[s.position]?

/-- `req_valid` as the host may drive it: it has a request to offer while its program is not at its end (10_state.md R21, R25).
DESIGN CHOICE (log entry 15): the spec does not say when the host raises `req_valid`; a host that waits is a run with `idle`
events, in which nothing transfers whatever this view shows. -/
def reqValid (s : State) : Bool :=
  s.offered.isSome

/-- `req_ready`: 0 while `rst` is asserted or `pending` is full, else 1 (10_state.md R29, R35; 70_reset_and_hazards.md R167).
A unit that shows 0 for longer is a run with more `idle` events (10_state.md R29). DESIGN CHOICE (log entry 12): the view does not
read `hasUnit`, so it shows the same where the unit is absent, a platform for which the spec gives no level. -/
def reqReady (s : State) : Bool :=
  !s.rst && decide (s.pending.length < s.platform.queueDepth)

/-- `resp_valid`: 0 while `rst` is asserted or nothing is pending, else 1 (10_state.md R26, R30, R35). A unit that raises
it later is a run with more `idle` events. -/
def respValid (s : State) : Bool :=
  !s.rst && !s.pending.isEmpty

/-- A run with a recorded fault or refusal (60_exceptions.md R139). -/
def stopped (s : State) : Bool :=
  s.fault.isSome || s.refused.isSome

/-- `result <- v`: one response is delivered, after those before it (10_state.md R30). -/
def deliver (v : Bits128) (s : State) : State :=
  { s with out := s.out ++ [v] }

/-- A request transfers: it is captured whole at the young end of `pending` and the host moves to its next request
(10_state.md R29). -/
def enqueue (r : Request) (s : State) : State :=
  { s with pending := s.pending ++ [r], position := s.position + 1 }

/-- The oldest request leaves `pending` (10_state.md R30). -/
def retire (s : State) : State :=
  { s with pending := s.pending.tail }

/-- The program index of the oldest pending request: its host position when it was issued (60_exceptions.md R139). The
pending requests are the last ones issued (DEDUCED, log entry 7), so it is the position less their number. -/
def oldestIndex (s : State) : Nat :=
  s.position - s.pending.length

/-- `fault := some (f, n)`; a fault or refusal already recorded is kept (60_exceptions.md R133, R139). -/
def recordFault (f : Fault) (n : Nat) (s : State) : State :=
  if s.stopped then s else { s with fault := some (f, n) }

/-- `refused := some (r, n)`; a fault or refusal already recorded is kept (60_exceptions.md R133, R139). -/
def recordRefusal (r : RecordedRefusal) (n : Nat) (s : State) : State :=
  if s.stopped then s else { s with refused := some (r, n) }

/-- The response to a reserved request: one response, of an unspecified value, in its place in the order
(60_exceptions.md R131; the value is free, log entry 5). -/
def deliverReserved (s : State) : State :=
  { s.deliver (Config.reservedResult s.freeCount) with freeCount := s.freeCount + 1 }

/-- `rst` is asserted: every request in flight is dropped; `fault`, `refused`, `out` and the host's position stay
(70_reset_and_hazards.md R160). -/
def assertRst (s : State) : State :=
  { s with pending := [], rst := true }

/-- `rst` is released: the unit accepts requests at once (70_reset_and_hazards.md R162). -/
def releaseRst (s : State) : State :=
  { s with rst := false }

end State

end Sys2Proof.Machine
end

