-- ==== Sys2Proof/Machine/Clmul.lean ====
section
/-! DEFINITION. The carry-less multiply family: CLMUL (40_clmul.md). -/

namespace Sys2Proof.Machine

/-- The reference loop of 40_clmul.md R80 with `n` iterations left, at bit `i` of `a`, with accumulator `acc` and working
copy `w`. -/
def clmulLoop (a : Bits64) : Nat → Nat → Bits128 → Bits128 → Bits128
  | 0, _, acc, _ => acc
  | n + 1, i, acc, w => clmulLoop a n (i + 1) (if a.getLsbD i then acc ^^^ w else acc) (w <<< 1)

/-- The carry-less product of two operands (40_clmul.md R80). -/
def clmul (a b : Bits64) : Bits128 :=
  clmulLoop a 64 0 0#128 (zext128 b)

/-- CLMUL a, b (40_clmul.md R80). -/
def execClmul (a b : Bits64) (s : State) : Host.Outcome State Fault Refusal :=
  .next (s.deliver (clmul a b))

end Sys2Proof.Machine
end

