-- ==== Sys2Proof/Machine/Morton.lean ====
section
/-! DEFINITION. The dilation and Morton family: DILATE, MORTON, DILATE_MAGIC, MORTON_MAGIC (41_morton.md). -/

namespace Sys2Proof.Machine

/-- The carry-less square of the operand (41_morton.md R100). -/
def dilate (a : Bits64) : Bits128 :=
  clmul a a

/-- X on the even bits, Y on the odd bits (41_morton.md R102). -/
def morton (x y : Bits64) : Bits128 :=
  (dilate y <<< 1) ||| dilate x

/-- The 64-bit result of DILATE_MAGIC (41_morton.md R105); open out of range (log entry 4). -/
def dilateMagic (a : Bits64) : Bits64 :=
  if inRange a then respHalf0 (dilate a) else Config.magicDilateWide a

/-- The 64-bit result of MORTON_MAGIC (41_morton.md R107); open when either operand is out of range (log entry 4). -/
def mortonMagic (x y : Bits64) : Bits64 :=
  if inRange x && inRange y then respHalf0 (morton x y) else Config.magicMortonWide x y

/-- DILATE a (41_morton.md R100); the field `b` is not read (30_encoding.md R64). -/
def execDilate (a : Bits64) (s : State) : Host.Outcome State Fault Refusal :=
  .next (s.deliver (dilate a))

/-- MORTON x, y (41_morton.md R102). -/
def execMorton (x y : Bits64) (s : State) : Host.Outcome State Fault Refusal :=
  .next (s.deliver (morton x y))

/-- DILATE_MAGIC a (41_morton.md R105), zero-extended into the response (R109); the field `b` is not read. -/
def execDilateMagic (a : Bits64) (s : State) : Host.Outcome State Fault Refusal :=
  .next (s.deliver (zext128 (dilateMagic a)))

/-- MORTON_MAGIC x, y (41_morton.md R107), zero-extended into the response (R109). -/
def execMortonMagic (x y : Bits64) (s : State) : Host.Outcome State Fault Refusal :=
  .next (s.deliver (zext128 (mortonMagic x y)))

end Sys2Proof.Machine
end

