-- ==== Sys2Proof/Machine/Dispatch.lean ====
section
/-! DEFINITION. What each instruction does, one arm per constructor: `Eval` and `result <-` of 10_state.md R30, R31 for a
request that has left `pending`. -/

namespace Sys2Proof.Machine

def exec (i : Instr) (s : State) : Host.Outcome State Fault Refusal :=
  match i with
  | .clmul a b => Sys2Proof.Machine.execClmul a b s
  | .dilate a _ => Sys2Proof.Machine.execDilate a s
  | .morton x y => Sys2Proof.Machine.execMorton x y s
  | .dilateMagic a _ => Sys2Proof.Machine.execDilateMagic a s
  | .mortonMagic x y => Sys2Proof.Machine.execMortonMagic x y s

end Sys2Proof.Machine
end

