-- ==== Sys2Proof/Machine/Events.lean ====
section
/-! DEFINITION. The events of the transaction-level model: ACCEPT (10_state.md R29), RESPOND (R30), RESET
(70_reset_and_hazards.md R160), a read of `resp_result` (10_state.md R27) and time without a transfer. An event that is not
enabled does not happen: the state stays as it is. -/

namespace Sys2Proof.Machine

/-- ACCEPT (10_state.md R29). Nothing transfers while `rst` is asserted (R35) or while the host offers nothing. An absent
unit refuses the program (60_exceptions.md R132). -/
def acceptEvent (s : State) : State :=
  match s.offered with
  | none => s
  | some r =>
    if s.rst then s
    else if !s.platform.hasUnit then s.recordRefusal .noUnit s.position
    else if s.reqReady then s.enqueue r
    else s

/-- RESPOND (10_state.md R30): the oldest request leaves `pending` and is performed; a reserved one gets a response of
unspecified value, and the fault is recorded (60_exceptions.md R131). -/
def respondEvent (s : State) : Host.Outcome State Fault Refusal :=
  match s.pending with
  | [] => .next s
  | r :: _ =>
    if s.rst then .next s
    else
      match r.decoded with
      | .op i => exec i s.retire
      | .reserved op => .next ((s.retire.deliverReserved).recordFault (.reservedOp op) s.oldestIndex)

/-- A read of `resp_result` where it holds no value: the fault is recorded with the host's position at the read
(60_exceptions.md R139). -/
def sampleEvent (s : State) : State :=
  s.recordFault .noResultValue s.position

/-- A recorded fault or refusal is a terminal outcome of the run (60_exceptions.md R135, R139): it is what every later
event answers. -/
def unlessStopped (s : State) (o : Host.Outcome State Fault Refusal) : Host.Outcome State Fault Refusal :=
  match s.refused, s.fault with
  | some (r, _), _ => .refused r.outcome
  | none, some (f, _) => .fault f
  | none, none => o

/-- One event. Those of the reset line happen in every state (70_reset_and_hazards.md R161), a stopped one too (V84). -/
def perform (e : Event) (s : State) : Host.Outcome State Fault Refusal :=
  match e with
  | .idle => unlessStopped s (.next s)
  | .accept => unlessStopped s (.next (acceptEvent s))
  | .respond => unlessStopped s (respondEvent s)
  | .sampleResult => unlessStopped s (.next (sampleEvent s))
  | .reset => .next s.assertRst.releaseRst
  | .assertRst => .next s.assertRst
  | .releaseRst => .next s.releaseRst

/-- The next event of the script, and the state without it; with no event to come, nothing transfers (log entry 3). -/
def nextEvent (s : State) : Event × State :=
  match s.script with
  | [] => (.idle, s)
  | e :: es => (e, { s with script := es })

/-- Puts a request where the next RESPOND takes it: the oldest of `pending`, with the response port free to transfer and
the run not stopped. -/
def placeRequest (r : Request) (s : State) : State :=
  { s with
    pending := r :: s.pending.tail
    script := .respond :: s.script
    rst := false
    fault := none
    refused := none }

end Sys2Proof.Machine
end

