-- ==== Sys2Proof/Machine/Step.lean ====
section
/-! DEFINITION. One step of a run: the next event of the script takes place (log entry 3). -/

namespace Sys2Proof.Machine

/-- One step: the next event happens. -/
def step (s : State) : Host.Outcome State Fault Refusal :=
  perform (nextEvent s).1 (nextEvent s).2

/-- `s` with the request of the lowest `nbits` bits of `w` as the oldest pending one and RESPOND as the next event (log
entry 3): where the unit takes the next request it performs (10_state.md R30). -/
def State.withFetchWord (s : State) (nbits w : Nat) : State :=
  placeRequest (Request.ofWord (BitVec.ofNat 131 (w % 2 ^ nbits))) s

end Sys2Proof.Machine
end

