-- ==== Sys2Proof/Machine/Assembler.lean ====
section
/-! DEFINITION. The spec's assembler syntax (30_encoding.md R69): a line of text becomes a request word or is rejected. -/

namespace Sys2Proof.Machine

/-- A request as the assembler reads it, its literals not yet checked (30_encoding.md R69). -/
inductive Asm where
  | clmul (a b : Nat)
  | dilate (a : Nat)
  | morton (x y : Nat)
  | dilateMagic (a : Nat)
  | mortonMagic (x y : Nat)
  /-- `.req 0x<131-bit hex>`: a raw request word, the only way to write a reserved `op`. -/
  | raw (w : Nat)
  deriving DecidableEq, Repr

/-- A token of a line. -/
inductive AsmToken where
  | word (w : List Char)
  | comma
  | equals
  deriving DecidableEq, Repr

/-- The value of a hex digit, in either case (30_encoding.md R69 says only `hex`; log entry 8). -/
def hexDigit (c : Char) : Option Nat :=
  if '0' ≤ c && c ≤ '9' then some (c.toNat - 48)
  else if 'a' ≤ c && c ≤ 'f' then some (c.toNat - 87)
  else if 'A' ≤ c && c ≤ 'F' then some (c.toNat - 55)
  else none

/-- The value of a run of digits in the given base, most significant first; any other character, `_` among them, is rejected
(log entry 8). -/
def digitsValue (base : Nat) : List Char → Nat → Option Nat
  | [], acc => some acc
  | c :: cs, acc =>
    match hexDigit c with
    | some d => if d < base then digitsValue base cs (acc * base + d) else none
    | none => none

/-- `decimal`: at least one digit. -/
def decimalValue (ds : List Char) : Option Nat :=
  if ds.isEmpty then none else digitsValue 10 ds 0

/-- `lit ::= decimal | "0x" hex` (30_encoding.md R69). -/
def literalValue (w : List Char) : Option Nat :=
  match w with
  | '0' :: 'x' :: ds => if ds.isEmpty then none else digitsValue 16 ds 0
  | ds => decimalValue ds

/-- A finished word in front of the tokens that follow it. -/
def consWord (acc : List Char) (ts : List AsmToken) : List AsmToken :=
  if acc.isEmpty then ts else .word acc.reverse :: ts

/-- The tokens of a line: words are cut at spaces, commas and `=` (spacing is the model's choice, log entry 8). -/
def tokens : List Char → List Char → List AsmToken
  | [], acc => consWord acc []
  | c :: cs, acc =>
    if c = ' ' then consWord acc (tokens cs [])
    else if c = ',' then consWord acc (.comma :: tokens cs [])
    else if c = '=' then consWord acc (.equals :: tokens cs [])
    else tokens cs (c :: acc)

/-- `name ::= "r" decimal` (30_encoding.md R69). -/
def isResponseName (w : List Char) : Bool :=
  match w with
  | 'r' :: ds => (decimalValue ds).isSome
  | _ => false

/-- A mnemonic with one literal (30_encoding.md R69). -/
def parseUnary (m l : List Char) : Option Asm :=
  match literalValue l with
  | none => none
  | some a =>
    if m = ['D', 'I', 'L', 'A', 'T', 'E'] then some (.dilate a)
    else if m = ['D', 'I', 'L', 'A', 'T', 'E', '_', 'M', 'A', 'G', 'I', 'C'] then some (.dilateMagic a)
    else none

/-- A mnemonic with two literals (30_encoding.md R69). -/
def parseBinary (m l₁ l₂ : List Char) : Option Asm :=
  match literalValue l₁, literalValue l₂ with
  | some a, some b =>
    if m = ['C', 'L', 'M', 'U', 'L'] then some (.clmul a b)
    else if m = ['M', 'O', 'R', 'T', 'O', 'N'] then some (.morton a b)
    else if m = ['M', 'O', 'R', 'T', 'O', 'N', '_', 'M', 'A', 'G', 'I', 'C'] then some (.mortonMagic a b)
    else none
  | _, _ => none

/-- `.req 0x<hex>` (30_encoding.md R69). DESIGN CHOICE (log entry 8): R69's `hex` does not say whether the `_` of the written
form of a request word (R60) may stand in it; 95_test_vectors.md P6 writes one so, and here any `_` after the `0x` is
skipped. A literal of the other forms holds no `_`. DESIGN CHOICE (log entry 8): R69's `131-bit hex` does not say how many digits
there must be, and any number of them from 1 on is taken, the digits left out above being 0. -/
def parseRaw (l : List Char) : Option Asm :=
  match l with
  | '0' :: 'x' :: ds => (literalValue ('0' :: 'x' :: ds.filter (· ≠ '_'))).map .raw
  | _ => none

/-- `mnemonic operands`, or a raw word (30_encoding.md R69). -/
def parseOperation : List AsmToken → Option Asm
  | [.word m, .word l] => if m = ['.', 'r', 'e', 'q'] then parseRaw l else parseUnary m l
  | [.word m, .word l₁, .comma, .word l₂] => parseBinary m l₁ l₂
  | _ => none

/-- `request ::= [ name "=" ] mnemonic operands` (30_encoding.md R69): the name is for the reader only. DESIGN CHOICE (log entry
8): R69 does not say whether a name may stand before a raw word, and here it may. -/
def parseRequest : List AsmToken → Option Asm
  | .word n :: .equals :: ts => if isResponseName n then parseOperation ts else none
  | ts => parseOperation ts

/-- A literal as a 64-bit operand; one that does not fit is rejected (30_encoding.md R69). -/
def operandOf (n : Nat) : Option Bits64 :=
  if literalFits n then some (BitVec.ofNat 64 n) else none

/-- The request word of a mnemonic and its literals. -/
def assembleFields (op : Bits3) (a b : Nat) : Option ReqWord :=
  match operandOf a, operandOf b with
  | some a, some b => some (packFields op b a)
  | _, _ => none

/-- The request word of a request as read: the unary forms encode `b = 0` (30_encoding.md R64, R69). DESIGN CHOICE (log entry 8):
R69 gives the raw form for the reserved `op` values and does not say whether it may write a defined one; here a raw word
may hold any `op`. -/
def assemble : Asm → Option ReqWord
  | .clmul a b => assembleFields 0#3 a b
  | .dilate a => assembleFields 1#3 a 0
  | .morton x y => assembleFields 2#3 x y
  | .dilateMagic a => assembleFields 3#3 a 0
  | .mortonMagic x y => assembleFields 4#3 x y
  | .raw w => if rawWordFits w then some (BitVec.ofNat 131 w) else none

/-- A line of assembler text to its request word (30_encoding.md R69). -/
def assembleLine (line : List Char) : Option ReqWord :=
  match parseRequest (tokens line []) with
  | some r => assemble r
  | none => none

end Sys2Proof.Machine
end

