-- ==== Sys2Proof/Safety.lean ====
section
/-! DEFINITION. The terms in which claims about the unit are made: the parity form of the product, the response of a
request, which runs a claim is about, the end of a run, the invariants of a run, and fair schedules. -/

namespace Sys2Proof.Machine

/-- Bit `k` of the carry-less product: the XOR over `i` in 0..63 of `a[i] AND b[k - i]`, where a bit outside 0..63 is 0
(40_clmul.md R81). -/
def clmulParity (a b : Bits64) (k : Nat) : Bool :=
  (List.range 64).foldl (fun p i => p ^^ (a.getLsbD i && (decide (i ≤ k) && b.getLsbD (k - i)))) false

/-- `hb(v)`: the index of the highest set bit of a value that is not 0 (40_clmul.md R83). -/
def highBit (v : Bits64) : Nat :=
  v.toNat.log2

/-- Instruction `i` answers the response `v` in every state: it completes, appends `v` to the responses delivered, and
leaves every other field of the state as it is. -/
def Responds (i : Instr) (v : Bits128) : Prop :=
  ∀ s : State, exec i s = .next { s with out := s.out ++ [v] }

/-- The usual four-step 16-to-32-bit spread that 41_morton.md R106 gives for information only; the model does not use
it. -/
def usualSpread (a : Bits64) : BitVec 32 :=
  let v₀ : BitVec 32 := a.setWidth 32 &&& 0xFFFF#32
  let v₁ := (v₀ ||| v₀ <<< 8) &&& 0x00FF00FF#32
  let v₂ := (v₁ ||| v₁ <<< 4) &&& 0x0F0F0F0F#32
  let v₃ := (v₂ ||| v₂ <<< 2) &&& 0x33333333#32
  (v₃ ||| v₃ <<< 1) &&& 0x55555555#32

/-- The response of a defined request (10_state.md R31, `Eval`). -/
def responseOf : Instr → Bits128
  | .clmul a b => clmul a b
  | .dilate a _ => dilate a
  | .morton x y => morton x y
  | .dilateMagic a _ => zext128 (dilateMagic a)
  | .mortonMagic x y => zext128 (mortonMagic x y)

/-- `Eval` of a request, which a reserved one has not (10_state.md R31). -/
def Request.value? (r : Request) : Option Bits128 :=
  match r.decoded with
  | .op i => some (responseOf i)
  | .reserved _ => none

/-- A reset event: the only events that drop pending requests (70_reset_and_hazards.md R160, R161). -/
def Event.isReset : Event → Bool
  | .reset => true
  | .assertRst => true
  | _ => false

/-- An event of the reset line. -/
def Event.isResetLine : Event → Bool
  | .reset => true
  | .assertRst => true
  | .releaseRst => true
  | _ => false

namespace State

/-- The premise of every claim about a run: no fault and no refusal recorded (60_exceptions.md R139). -/
def clean (s : State) : Bool :=
  !s.stopped

/-- The end of a run (70_reset_and_hazards.md R170). -/
def final (s : State) : Bool :=
  decide (s.position = s.program.length) && s.pending.isEmpty && s.clean

/-- `pending` never holds more than QUEUE_DEPTH requests, which is at least 1 (00_scope.md R5, 10_state.md R28). -/
def QueueBounded (s : State) : Prop :=
  1 ≤ s.platform.queueDepth ∧ s.pending.length ≤ s.platform.queueDepth

/-- The pending requests are the last ones the host issued, in the order it issued them (10_state.md R21, R29, R30). -/
def PendingIssued (s : State) : Prop :=
  s.position ≤ s.program.length ∧ s.pending <:+ s.program.take s.position

/-- While `rst` is asserted nothing is pending (10_state.md R35, 70_reset_and_hazards.md R160). -/
def EmptyInReset (s : State) : Prop :=
  s.rst = true → s.pending = []

/-- On a platform without the unit nothing is ever issued or delivered (60_exceptions.md R132). -/
def NothingWithoutUnit (s : State) : Prop :=
  s.platform.hasUnit = false → s.position = 0 ∧ s.out = []

/-- A recorded fault has its cause: a reserved request at the recorded index of the program, or a read by the host at
its position (60_exceptions.md R131, R139). -/
def FaultHasCause (s : State) : Prop :=
  (∀ op n, s.fault = some (.reservedOp op, n) → 5 ≤ op.toNat ∧ (s.program[n]?).map Request.op = some op) ∧
    (∀ n, s.fault = some (.noResultValue, n) → n ≤ s.position)

/-- A recorded refusal has its cause: the unit is absent, and the first request of the program was issued
(60_exceptions.md R132). -/
def RefusalHasCause (s : State) : Prop :=
  ∀ r n, s.refused = some (r, n) → r = .noUnit ∧ n = 0 ∧ s.platform.hasUnit = false ∧ s.program ≠ []

/-- The invariant of a run. -/
def Inv (s : State) : Prop :=
  s.QueueBounded ∧ s.PendingIssued ∧ s.EmptyInReset ∧ s.NothingWithoutUnit ∧ s.FaultHasCause ∧ s.RefusalHasCause ∧
    ¬ (s.fault.isSome = true ∧ s.refused.isSome = true)

/-- While no fault is recorded, the responses delivered and those still owed are the values of issued requests, in issue
order, some of them dropped by resets (10_state.md R30, 70_reset_and_hazards.md R170). -/
def DeliveredInOrder (s : State) : Prop :=
  s.fault = none →
    List.Sublist (s.out.map some ++ s.pending.map Request.value?) ((s.program.take s.position).map Request.value?)

/-- The same where no reset has dropped a request: every issued request has its response, or it is pending. -/
def DeliveredAll (s : State) : Prop :=
  s.fault = none →
    s.out.map some ++ s.pending.map Request.value? = (s.program.take s.position).map Request.value?

/-- A run about to start: the reset state with the platform's parameters, the host's program and the events to come. -/
def start (p : Config.Platform) (prog : List Request) (events : List Event) : State :=
  { State.reset with platform := p, program := prog, script := events }

end State

/-- The first `n` events of an infinite schedule, one after the other, up to a fault or refusal. -/
def runOn (σ : Nat → Event) : Nat → State → Host.Outcome State Fault Refusal
  | 0, s => .next s
  | n + 1, s =>
    match runOn σ n s with
    | .next t => perform (σ n) t
    | .fault f => .fault f
    | .refused r => .refused r

/-- One time of a schedule: the host's part, which is its level of `req_valid` and of `resp_ready` at that time (10_state.md R25,
R26), and the part of the unit and the reset line (log entry 6). -/
structure Turn where
  /-- The host holds `req_valid` at 1: it offers its next request, if it has one. -/
  offering : Bool
  /-- The host holds `resp_ready` at 1: it can take a response. -/
  taking : Bool
  /-- What takes place if the host plays its part: `accept` where the unit is ready to accept, `respond` where it offers its
  oldest response. -/
  chance : Event
  deriving DecidableEq, Repr

/-- What takes place at a time: a channel transfers only where both of its sides are ready (10_state.md R25, R26). -/
def Turn.happens (u : Turn) : Event :=
  match u.chance with
  | .accept => if u.offering then .accept else .idle
  | .respond => if u.taking then .respond else .idle
  | e => e

/-- The events of a schedule of turns. -/
def eventsOf (τ : Nat → Turn) (n : Nat) : Event :=
  (τ n).happens

/-- The host keeps taking responses (70_reset_and_hazards.md R168). -/
def HostKeepsTaking (τ : Nat → Turn) : Prop :=
  ∀ n, (τ n).taking = true

/-- The host keeps offering a request (70_reset_and_hazards.md R168). -/
def HostKeepsOffering (τ : Nat → Turn) : Prop :=
  ∀ n, (τ n).offering = true

/-- The unit's guarantee for RESPOND in the run from `s`: if from some time on `pending` is non-empty, `rst` is released and the
host is taking, a RESPOND eventually happens (70_reset_and_hazards.md R168). Of a host that does not keep taking it says nothing. -/
def RespondFair (τ : Nat → Turn) (s : State) : Prop :=
  ∀ n, (∀ m, n ≤ m → ∃ t, runOn (eventsOf τ) m s = .next t ∧ t.respValid = true ∧ (τ m).taking = true) →
    ∃ m, n ≤ m ∧ eventsOf τ m = .respond

/-- The unit's guarantee for ACCEPT in the run from `s`: if from some time on `pending` is not full, `rst` is released and the host
is offering a request, an ACCEPT eventually happens (70_reset_and_hazards.md R168). Of a host that does not keep offering it says
nothing. -/
def AcceptFair (τ : Nat → Turn) (s : State) : Prop :=
  ∀ n, (∀ m, n ≤ m → ∃ t, runOn (eventsOf τ) m s = .next t ∧ t.reqReady = true ∧ t.reqValid = true ∧ (τ m).offering = true) →
    ∃ m, n ≤ m ∧ eventsOf τ m = .accept

/-- The weak fairness that stands in place of time: both guarantees of the unit, each under its own condition on the host
(70_reset_and_hazards.md R168; log entry 6). -/
def WeaklyFair (τ : Nat → Turn) (s : State) : Prop :=
  RespondFair τ s ∧ AcceptFair τ s

/-- A schedule in which nothing takes place but transfers and delays. -/
def OnlyTransfers (τ : Nat → Turn) : Prop :=
  ∀ n, eventsOf τ n = .accept ∨ eventsOf τ n = .respond ∨ eventsOf τ n = .idle

end Sys2Proof.Machine
end

