-- ==== Sys2Proof/Certificates/Slice0/Obligations.lean ====
section
/-! DEFINITION. The statements for the provers. None is about a program; those that name a program hold for every one. -/

open Sys2Proof Sys2Proof.Machine

/-- 40_clmul.md R81: CLMUL completes in every state, and bit `k` of its response is the parity of the products `a[i] AND b[j]`
with `i + j = k`. -/
def Obligations.ClmulRespondsParityProduct : Prop :=
  ∀ a b : Bits64, ∃ v, Responds (.clmul a b) v ∧ ∀ k, k < 128 → v.getLsbD k = clmulParity a b k

/-- 40_clmul.md R83: bit 127 is 0, bit 126 is `a[63] AND b[63]`, and for operands that are not 0 the highest set bit is at
`hb(a) + hb(b)`. The clause on `hb` is an inference the spec marks as its own (R83: 'Only the pair `(hb(a), hb(b))` contributes
to that bit, and no pair contributes above it [derived: from rule R81]'). -/
def Obligations.ClmulResultWidth : Prop :=
  ∀ a b : Bits64, ∃ v, Responds (.clmul a b) v ∧
    v.getLsbD 127 = false ∧
    v.getLsbD 126 = (a.getLsbD 63 && b.getLsbD 63) ∧
    (a ≠ 0 → b ≠ 0 →
      v.getLsbD (highBit a + highBit b) = true ∧ ∀ k, highBit a + highBit b < k → v.getLsbD k = false)

/-- 40_clmul.md R84: zero, commutativity, one, power of two, distributivity over XOR, squaring. R84 marks the general law of
one, the power of two and distributivity as its own inferences ('[derived: from rule R80]', '[derived: from rule R80 and
commutativity]', '[derived: from rule R81, since AND distributes over XOR]'). -/
def Obligations.ClmulAlgebraicLaws : Prop :=
  ∀ a b c : Bits64,
    (Responds (.clmul 0 b) 0 ∧ Responds (.clmul a 0) 0) ∧
    (∃ v, Responds (.clmul a b) v ∧ Responds (.clmul b a) v) ∧
    (Responds (.clmul a 1) (a.setWidth 128) ∧ Responds (.clmul 1 a) (a.setWidth 128)) ∧
    (∀ k, k < 64 → Responds (.clmul a (1#64 <<< k)) (a.setWidth 128 <<< k)) ∧
    (∃ u v, Responds (.clmul a b) u ∧ Responds (.clmul a c) v ∧ Responds (.clmul a (b ^^^ c)) (u ^^^ v)) ∧
    (∃ v, Responds (.clmul a a) v ∧
      ∀ i, i < 64 → v.getLsbD (2 * i) = a.getLsbD i ∧ v.getLsbD (2 * i + 1) = false)

/-- 41_morton.md R101, and R100 through it: the carry-less square of `a` has bit `i` of `a` at place `2i` and 0 at `2i + 1`, and
DILATE responds it, whatever its field `b` holds. R101 is an inference the spec marks as its own ('[derived: from
40_clmul.md rule R81]'). -/
def Obligations.SquaringIsDilation : Prop :=
  ∀ a b : Bits64, ∃ v, Responds (.clmul a a) v ∧ Responds (.dilate a b) v ∧
    ∀ i, i < 64 → v.getLsbD (2 * i) = a.getLsbD i ∧ v.getLsbD (2 * i + 1) = false

/-- 41_morton.md R103: X on the even bits, Y on the odd bits; every 128-bit value is the code of exactly one pair, which its
even and odd bits give. R103 is an inference the spec marks as its own ('[derived: from rule R101 and rule R102]'). -/
def Obligations.MortonInterleavesBijectively : Prop :=
  (∀ x y : Bits64, ∃ m, Responds (.morton x y) m ∧
    ∀ i, i < 64 → m.getLsbD (2 * i) = x.getLsbD i ∧ m.getLsbD (2 * i + 1) = y.getLsbD i) ∧
  (∀ m : Bits128, ∃ x y : Bits64, Responds (.morton x y) m ∧
    (∀ i, i < 64 → x.getLsbD i = m.getLsbD (2 * i) ∧ y.getLsbD i = m.getLsbD (2 * i + 1)) ∧
    ∀ x' y' : Bits64, Responds (.morton x' y') m → x' = x ∧ y' = y)

/-- 30_encoding.md R70, with what 41_morton.md R102 derives: the two identities between requests; bit 127 of a dilated value
is 0, and the two operands of the OR share no set bit ('The two operands of `|` have no set bit in common, so `|` could equally
be `^` [derived: from rule R101]'). -/
def Obligations.IdentitiesBetweenRequests : Prop :=
  ∀ x y b b' : Bits64, ∃ dx dy m,
    Responds (.clmul x x) dx ∧ Responds (.dilate x b) dx ∧ Responds (.dilate y b') dy ∧
    Responds (.morton x y) m ∧ m = (dy <<< 1) ||| dx ∧
    dy.getLsbD 127 = false ∧ (dy <<< 1) &&& dx = 0

/-- 41_morton.md R109 with the pseudocode of R105 and R107: the 64-bit result stands in `RESP[63:0]` and `RESP[127:64]` is 0, for
operands in range and out of range alike; in range it is cut from DILATE's and MORTON's response, out of range it is the
open parameter of the operands. -/
def Obligations.MagicResponsePlacement : Prop :=
  ∀ a b : Bits64,
    (∃ v d, Responds (.dilateMagic a b) v ∧ Responds (.dilate a b) d ∧
      v.extractLsb' 64 64 = 0 ∧
      v.extractLsb' 0 64 = if a.toNat < 65536 then d.extractLsb' 0 64 else Config.magicDilateWide a) ∧
    (∃ v m, Responds (.mortonMagic a b) v ∧ Responds (.morton a b) m ∧
      v.extractLsb' 64 64 = 0 ∧
      v.extractLsb' 0 64 =
        if a.toNat < 65536 ∧ b.toNat < 65536 then m.extractLsb' 0 64 else Config.magicMortonWide a b)

/-- 41_morton.md R108: in range the magic operations agree with DILATE and MORTON, and the value fits in bits 31:0, so no
bit of DILATE's or MORTON's 128-bit response is lost. R108 is an inference the spec marks as its own ('[derived: from rule R105
and rule R107]'). -/
def Obligations.MagicAgreesInRange : Prop :=
  ∀ x y b b' : Bits64, x.toNat < 65536 →
    (∃ d, Responds (.dilate x b) d ∧ Responds (.dilateMagic x b') d ∧ d.toNat < 2 ^ 32) ∧
    (y.toNat < 65536 → ∃ m, Responds (.morton x y) m ∧ Responds (.mortonMagic x y) m ∧ m.toNat < 2 ^ 32)

/-- 41_morton.md R107, derived there: in range MORTON_MAGIC is composed from two DILATE_MAGICs ('When both operands are in range,
`result64 = (DILATE_MAGIC(y) << 1) | DILATE_MAGIC(x)` [derived: from rule R102 and rule R105]'). -/
def Obligations.MortonMagicComposesInRange : Prop :=
  ∀ x y b b' : Bits64, x.toNat < 65536 → y.toNat < 65536 →
    ∃ dx dy m, Responds (.dilateMagic x b) dx ∧ Responds (.dilateMagic y b') dy ∧ Responds (.mortonMagic x y) m ∧
      m.extractLsb' 0 64 = (dy.extractLsb' 0 64 <<< 1) ||| dx.extractLsb' 0 64

/-- 41_morton.md R106, for information there: the usual four-step spread gives `DILATE(a)[31:0]` on every in-range input. It is
not claimed to be the unit's mask sequence. -/
def Obligations.UsualSpreadAgreesInRange : Prop :=
  ∀ a b : Bits64, a.toNat < 65536 →
    ∃ v, Responds (.dilateMagic a b) v ∧ v.extractLsb' 0 32 = usualSpread a

/-- 30_encoding.md R64: DILATE and DILATE_MAGIC give the same whatever `b` holds, and the assembler encodes `b = 0` for them. -/
def Obligations.UnaryOperationsIgnoreB : Prop :=
  (∀ (a b b' : Bits64) (s : State),
    exec (.dilate a b) s = exec (.dilate a b') s ∧ exec (.dilateMagic a b) s = exec (.dilateMagic a b') s) ∧
  (∀ (n : Nat) (w : ReqWord), assemble (.dilate n) = some w ∨ assemble (.dilateMagic n) = some w →
    w.extractLsb' 64 64 = 0)

/-- The frame of all five instructions (CLMUL, DILATE, MORTON, DILATE_MAGIC, MORTON_MAGIC), 20_memory.md R45: one response is
delivered after those before it, and every other field of the state is as it was. -/
def Obligations.InstructionFrame : Prop :=
  ∀ (i : Instr) (s t : State), exec i s = .next t →
    (∃ v, t.out = s.out ++ [v]) ∧ t.platform = s.platform ∧ t.rst = s.rst ∧ t.pending = s.pending ∧
      t.program = s.program ∧ t.position = s.position ∧ t.fault = s.fault ∧ t.refused = s.refused ∧
      t.script = s.script ∧ t.freeCount = s.freeCount

/-- 60_exceptions.md R130: no operand value makes an instruction stop; each completes with one response, the same in every
state. -/
def Obligations.EveryInstructionCompletes : Prop :=
  ∀ i : Instr, ∃ v, Responds i v

/-- 30_encoding.md R60, R62: decoding an encoded instruction gives it back with every operand, a word that decodes to an
instruction is its encoding, and the table's numbering of the bits reads the same instruction, in 131 bits or 17 bytes. -/
def Obligations.DecodeEncodeAgree : Prop :=
  (∀ i : Instr, i.wf = true → decode (encode i) = .op i ∧
    decodeTableWord 131 (encode i).toNat = some i ∧ decodeTableWord 136 (encode i).toNat = some i) ∧
  (∀ (w : ReqWord) (i : Instr), decode w = .op i → encode i = w)

/-- 30_encoding.md R68: every word decodes to exactly one of the five operations, with `a` and `b` from their fields, or to
`Reserved(op)`. R68 is an inference the spec marks as its own ('[derived: from rule R62 and rule R66]'). -/
def Obligations.DecodingIsTotal : Prop :=
  ∀ w : ReqWord,
    ((w.extractLsb' 128 3).toNat ≤ 4 →
      ∃ i, decode w = .op i ∧ opcodeOf i = w.extractLsb' 128 3 ∧ operandA i = w.extractLsb' 0 64 ∧
        operandB i = w.extractLsb' 64 64) ∧
    (4 < (w.extractLsb' 128 3).toNat → decode w = .reserved (w.extractLsb' 128 3))

/-- Words written out in 95_test_vectors.md V66 to V73. -/
def Obligations.WrittenWordsDecode : Prop :=
  decode 0x000000000000000030000000000000002#131 = .op (.clmul 2 3) ∧
  decode 0x1ffffffffffffffff000000000000000d#131 = .op (.dilate 13 0xffffffffffffffff) ∧
  decode 0x200000000000000010000000000000000#131 = .op (.morton 0 1) ∧
  decode 0x30000000000000000000000000000ffff#131 = .op (.dilateMagic 0xffff 0) ∧
  decode 0x4000000000000ffff000000000000ffff#131 = .op (.mortonMagic 0xffff 0xffff) ∧
  decode 0x500000000000000010000000000000001#131 = .reserved 5 ∧
  decode 0x600000000000000000000000000000000#131 = .reserved 6 ∧
  decode 0x7ffffffffffffffffffffffffffffffff#131 = .reserved 7

/-- 30_encoding.md R69: the assembler accepts a request when its literals fit in 64 bits, and then its word decodes to the
instruction with those operands; a raw word is taken when it fits in 131 bits, whatever its `op` (the model's choice, log
entry 8). -/
def Obligations.AssemblerAcceptsFittingLiterals : Prop :=
  ∀ a b : Nat,
    (a < 2 ^ 64 → b < 2 ^ 64 →
      (∃ w, assemble (.clmul a b) = some w ∧ decode w = .op (.clmul (BitVec.ofNat 64 a) (BitVec.ofNat 64 b))) ∧
      (∃ w, assemble (.morton a b) = some w ∧ decode w = .op (.morton (BitVec.ofNat 64 a) (BitVec.ofNat 64 b))) ∧
      (∃ w, assemble (.mortonMagic a b) = some w ∧
        decode w = .op (.mortonMagic (BitVec.ofNat 64 a) (BitVec.ofNat 64 b)))) ∧
    (a < 2 ^ 64 →
      (∃ w, assemble (.dilate a) = some w ∧ decode w = .op (.dilate (BitVec.ofNat 64 a) 0)) ∧
      (∃ w, assemble (.dilateMagic a) = some w ∧ decode w = .op (.dilateMagic (BitVec.ofNat 64 a) 0))) ∧
    (2 ^ 64 ≤ a → assemble (.dilate a) = none ∧ assemble (.dilateMagic a) = none) ∧
    (2 ^ 64 ≤ a ∨ 2 ^ 64 ≤ b →
      assemble (.clmul a b) = none ∧ assemble (.morton a b) = none ∧ assemble (.mortonMagic a b) = none) ∧
    (a < 2 ^ 131 → assemble (.raw a) = some (BitVec.ofNat 131 a)) ∧ (2 ^ 131 ≤ a → assemble (.raw a) = none)

/-- 10_state.md R30, R31, 30_encoding.md R68: when the next event is RESPOND, the response port may transfer and the word of the
oldest pending request decodes to a well-formed instruction, the step is that instruction's `exec` on the state that has
left the event and the request behind. -/
def Obligations.StepRunsDecodedInstruction : Prop :=
  ∀ (s : State) (es : List Event) (r : Request) (rest : List Request) (i : Instr),
    s.script = .respond :: es → s.pending = r :: rest → s.rst = false → s.clean = true →
    decode r.word = .op i → i.wf = true →
    step s = exec i { s with script := es, pending := rest }

/-- The next event of the script is what a step performs, and a script at its end leaves an unstopped run as it is (the
model's choice, log entry 3). -/
def Obligations.StepPerformsNextEvent : Prop :=
  ∀ (s : State) (e : Event) (es : List Event),
    (s.script = e :: es → step s = perform e { s with script := es }) ∧
    (s.script = [] → s.clean = true → step s = .next s)

/-- 10_state.md R29, reset being released: when the host offers `r`, ACCEPT refuses the program of an absent unit, captures `r`
behind the pending requests and moves the position if `pending` is not full, and does not happen otherwise; an event
that is no transfer leaves the state as it is. -/
def Obligations.AcceptTransfersOfferedRequest : Prop :=
  ∀ (s : State), s.clean = true →
    (∀ r, s.program[s.position]? = some r → s.rst = false →
      (s.platform.hasUnit = false →
        perform .accept s = .next { s with refused := some (.noUnit, s.position) }) ∧
      (s.platform.hasUnit = true → s.pending.length < s.platform.queueDepth →
        perform .accept s = .next { s with pending := s.pending ++ [r], position := s.position + 1 }) ∧
      (s.platform.hasUnit = true → s.platform.queueDepth ≤ s.pending.length →
        perform .accept s = .next s)) ∧
    (s.program[s.position]? = none → perform .accept s = .next s) ∧
    perform .idle s = .next s

/-- 10_state.md R30, with R31 and 60_exceptions.md R131: RESPOND performs the oldest pending request, appends its response and
takes it out of `pending`; a reserved one gets a response too, and the fault is recorded with the index of the request among
the requests issued; with nothing pending it does not happen. That the model's counter of free values moves on by 1 at a reserved
request is the model's choice (log entry 5). -/
def Obligations.RespondDeliversOldest : Prop :=
  ∀ (s : State), s.clean = true → s.rst = false →
    (∀ r rest i, s.pending = r :: rest → r.decoded = .op i →
      ∃ v, Responds i v ∧ perform .respond s = .next { s with pending := rest, out := s.out ++ [v] }) ∧
    (∀ r rest op, s.pending = r :: rest → r.decoded = .reserved op →
      ∃ v n, perform .respond s = .next
        { s with
          pending := rest
          out := s.out ++ [v]
          fault := some (.reservedOp op, n)
          freeCount := s.freeCount + 1 } ∧
        ∀ pre, s.position ≤ s.program.length → s.program.take s.position = pre ++ s.pending → n = pre.length) ∧
    (s.pending = [] → perform .respond s = .next s)

/-- 60_exceptions.md R131: a request with a reserved `op` is accepted like any other; at its RESPOND it gets exactly one response
in its place in the order and the fault is recorded with the index of the request; the premise of every claim then fails, and the
next step keeps the fault, so that it fails there too (`RecordedOutcomeIsKept` carries this to every step). -/
def Obligations.ReservedRequestFaultsRun : Prop :=
  ∀ (s : State) (r : Request), s.clean = true → s.rst = false → 5 ≤ r.op.toNat →
    (s.platform.hasUnit = true → s.pending.length < s.platform.queueDepth → s.program[s.position]? = some r →
      perform .accept s = .next { s with pending := s.pending ++ [r], position := s.position + 1 }) ∧
    (∀ rest, s.pending = r :: rest →
      ∃ t v n, perform .respond s = .next t ∧ t.out = s.out ++ [v] ∧ t.pending = rest ∧
        t.fault = some (.reservedOp r.op, n) ∧
        (∀ pre, s.position ≤ s.program.length → s.program.take s.position = pre ++ s.pending → n = pre.length) ∧
        t.clean = false ∧ ∀ u, step t = .next u → u.fault = t.fault ∧ u.clean = false)

/-- 60_exceptions.md R132, R133: without the unit the first ACCEPT records NoUnit with the request's index, whatever the request's
`op`; no fault is recorded, and the next step keeps the refusal, records no fault and delivers no response. -/
def Obligations.AbsentUnitRefusesProgram : Prop :=
  ∀ (s : State) (r : Request), s.clean = true → s.rst = false → s.platform.hasUnit = false →
    s.program[s.position]? = some r →
    ∃ t, perform .accept s = .next t ∧ t = { s with refused := some (.noUnit, s.position) } ∧ t.fault = none ∧
      ∀ u, step t = .next u → u.refused = some (.noUnit, s.position) ∧ u.fault = none ∧ u.out = s.out

/-- A run with a recorded fault or refusal answers it to every event but those of the reset line (the model's reading of
60_exceptions.md R135 'terminal outcomes of the run' and R131 'from then on no claim about the run holds', log entry 10). -/
def Obligations.StoppedRunAnswersItsRecord : Prop :=
  ∀ (s : State) (e : Event) (n : Nat), e.isResetLine = false →
    (∀ r, s.refused = some (r, n) → perform e s = .refused .noUnit) ∧
    (∀ f, s.fault = some (f, n) → s.refused = none → perform e s = .fault f)

/-- 60_exceptions.md R139, 10_state.md R35: a recorded fault or refusal is never cleared or changed by a step, the events of the
reset line among them; a state with either is never final. -/
def Obligations.RecordedOutcomeIsKept : Prop :=
  ∀ s t : State,
    (step s = .next t → (∀ x, s.fault = some x → t.fault = some x) ∧ (∀ x, s.refused = some x → t.refused = some x)) ∧
    ((s.fault.isSome = true ∨ s.refused.isSome = true) → s.final = false)

/-- 10_state.md R27, 60_exceptions.md R139 (V81): a read of `resp_result` outside a response transfer records NoResultValue with the
host's position and changes nothing else. That it does so in every clean state, also where `resp_valid` is 1 and R27 would
allow a value, is the model's reading (log entry 12), which follows R139 and 92_eei_decisions.md D24. -/
def Obligations.ReadOutsideResponseFaults : Prop :=
  ∀ s : State, s.clean = true →
    perform .sampleResult s = .next { s with fault := some (.noResultValue, s.position) }

/-- 70_reset_and_hazards.md R160, R161: in every state RESET drops every pending request and changes neither `fault`, `refused`, `out`
nor the host's position; while `rst` is asserted no transfer takes place. Three clauses are the
model's own (log entry 11): that RESET asserts and releases `rst` in one step, the two events for a port that is held, and that
a program offered to an absent unit is not refused while `rst` is asserted. -/
def Obligations.ResetDropsPendingRequests : Prop :=
  (∀ s : State,
    perform .reset s = .next { s with pending := [], rst := false } ∧
    perform .assertRst s = .next { s with pending := [], rst := true } ∧
    perform .releaseRst s = .next { s with rst := false }) ∧
  (∀ s : State, s.clean = true → s.rst = true →
    perform .accept s = .next s ∧ perform .respond s = .next s)

/-- 10_state.md R35: after RESET `pending` is empty, `req_ready` is 1 once reset is released, `resp_valid` is 0, `resp_result` has no
value, and the bookkeeping of the run is unchanged; while `rst` is asserted `req_ready` and `resp_valid` are 0 and nothing
transfers. Two clauses are the model's own (log entry 11): that `req_ready` is 1 right after the RESET event, which releases `rst`
in the same step, and that an absent unit refuses nothing while `rst` is asserted. So is the level of `req_ready` on a platform
without the unit, for which the spec gives none (log entry 12). -/
def Obligations.ResetValuesOfPorts : Prop :=
  (∀ s : State, 1 ≤ s.platform.queueDepth →
    ∃ t, perform .reset s = .next t ∧ t.pending = [] ∧ t.reqReady = true ∧ t.respValid = false ∧
      (t.clean = true → perform .sampleResult t = .next { t with fault := some (.noResultValue, t.position) }) ∧
      t.fault = s.fault ∧ t.refused = s.refused ∧ t.position = s.position ∧ t.out = s.out) ∧
  (∀ s : State, s.rst = true → s.reqReady = false ∧ s.respValid = false ∧
    (s.clean = true → perform .accept s = .next s ∧ perform .respond s = .next s))

/-- 10_state.md R25, R26: on a platform with the unit, ACCEPT moves the run exactly when `req_valid` and `req_ready` are both 1, and
RESPOND delivers a response exactly when `resp_valid` is 1, the host being ready. The levels are the model's computed views (log
entries 12 and 15). -/
def Obligations.TransfersNeedValidAndReady : Prop :=
  ∀ s : State, s.clean = true → s.platform.hasUnit = true →
    (∃ t, perform .accept s = .next t ∧
      t.position = if s.reqValid && s.reqReady then s.position + 1 else s.position) ∧
    (∃ t, perform .respond s = .next t ∧
      t.out.length = if s.respValid then s.out.length + 1 else s.out.length)

/-- 70_reset_and_hazards.md R167: with `pending` full `req_ready` is 0 and the host must wait; after the next RESPOND of a defined
request ACCEPT is enabled again; at QUEUE_DEPTH 1 one request in flight is already full. That `req_ready` shows 1 right after that
RESPOND is the model's computed view (log entry 12): R29 lets a unit hold it at 0 for a time with room in the queue. -/
def Obligations.BackPressureUntilRespond : Prop :=
  ∀ (s : State) (r : Request), s.clean = true → s.rst = false → s.platform.hasUnit = true →
    1 ≤ s.platform.queueDepth → s.program[s.position]? = some r →
    (s.pending.length = s.platform.queueDepth →
      s.reqReady = false ∧ perform .accept s = .next s ∧
      ∃ t, perform .respond s = .next t ∧ t.reqReady = true ∧
        ((∀ q, s.pending.head? = some q → q.op.toNat ≤ 4) →
          perform .accept t = .next { t with pending := t.pending ++ [r], position := t.position + 1 })) ∧
    (s.platform.queueDepth = 1 → s.pending ≠ [] → perform .accept s = .next s)

/-- 10_state.md R32: two requests with equal `op`, `a` and `b` (any `b` for the unary operations) get equal responses, whatever
came before them, and nothing of a request stays in the unit after its RESPOND. R32 is an inference the spec marks as its
own ('[derived: from rule R31 and 30_encoding.md rule R64]'). -/
def Obligations.EqualRequestsGetEqualResponses : Prop :=
  ∀ (s s' : State) (r r' : Request) (rest rest' : List Request),
    s.clean = true → s'.clean = true → s.rst = false → s'.rst = false →
    s.pending = r :: rest → s'.pending = r' :: rest' →
    r.op = r'.op → r.a = r'.a → (r.b = r'.b ∨ r.op = 1 ∨ r.op = 3) → r.op.toNat ≤ 4 →
    ∃ v, perform .respond s = .next { s with pending := rest, out := s.out ++ [v] } ∧
      perform .respond s' = .next { s' with pending := rest', out := s'.out ++ [v] }

/-- 20_memory.md R49, 10_state.md R30: taking responses one after the other delivers every pending request's value in acceptance
order, each from its own request, and leaves nothing pending. -/
def Obligations.RespondsDrainInOrder : Prop :=
  ∀ s : State, s.clean = true → s.rst = false → (∀ r ∈ s.pending, r.op.toNat ≤ 4) →
    ∃ vs, runOn (fun _ => .respond) s.pending.length s = .next { s with pending := [], out := s.out ++ vs } ∧
      vs.map some = s.pending.map Request.value?

/-- 10_state.md R21: the position starts at 0, goes up by 1 at each ACCEPT, which takes the request at the position, and never
jumps; the program is the host's and never changes. -/
def Obligations.PositionNeverJumps : Prop :=
  State.reset.position = 0 ∧
  ∀ s t : State, step s = .next t → t.program = s.program ∧
    ((t.position = s.position ∧ (t.pending = s.pending ∨ t.pending = s.pending.tail ∨ t.pending = [])) ∨
      (t.position = s.position + 1 ∧ ∃ r, s.program[s.position]? = some r ∧ t.pending = s.pending ++ [r]))

/-- 10_state.md R23, 00_scope.md R5: the platform's parameters are fixed for a run. -/
def Obligations.PlatformIsFixed : Prop :=
  ∀ s t : State, step s = .next t → t.platform = s.platform

/-- The reset state meets the invariant of a run, and so does the start of a run of any program on any platform with
QUEUE_DEPTH at least 1, with any events to come (the empty program and script of the reset state are the model's choice,
log entries 1, 2 and 3). -/
def Obligations.RunStartsInInvariant : Prop :=
  State.reset.Inv ∧
  ∀ (p : Config.Platform) (prog : List Request) (es : List Event), p.wf = true →
    (State.start p prog es).Inv ∧ (State.start p prog es).DeliveredInOrder ∧ (State.start p prog es).DeliveredAll

/-- Every step keeps the invariant: `pending` within QUEUE_DEPTH and equal to the last requests issued, nothing in flight in
reset, nothing issued without the unit, and every recorded fault or refusal with its cause at its index. -/
def Obligations.StepKeepsInvariant : Prop :=
  ∀ s t : State, s.Inv → step s = .next t → t.Inv

/-- 10_state.md R30, 70_reset_and_hazards.md R170: every step keeps the responses in issue order, each the value of an issued request
that no reset dropped. -/
def Obligations.StepKeepsDeliveryOrder : Prop :=
  ∀ s t : State, s.DeliveredInOrder → step s = .next t → t.DeliveredInOrder

/-- 10_state.md R26: a step that is no reset loses no request: every issued request has its response or is pending. -/
def Obligations.StepWithoutResetLosesNothing : Prop :=
  ∀ s t : State, s.DeliveredAll → (nextEvent s).1.isReset = false → step s = .next t → t.DeliveredAll

/-- 20_memory.md R46, 70_reset_and_hazards.md R170: whatever the order of ACCEPT and RESPOND events, a run of a program without a
reset that ends has delivered exactly the values of the program's requests, in program order. -/
def Obligations.EveryInterleavingDeliversSame : Prop :=
  ∀ (p : Config.Platform) (prog : List Request) (es : List Event) (n : Nat) (t : State),
    (∀ e ∈ es, e.isReset = false) →
    Host.Core.run core n (State.start p prog es) = .next t → State.final t = true →
    List.map some (State.out t) = prog.map Request.value?

/-- 70_reset_and_hazards.md R168, first condition: if the unit is fair to RESPOND and the host keeps taking, whatever the host does
on the request channel, the pending requests, all of them defined, get their responses in order. The fairness is the spec's
assumption, in the form of log entry 6. -/
def Obligations.TakingHostGetsPendingResponses : Prop :=
  ∀ (τ : Nat → Turn) (s : State), RespondFair τ s → HostKeepsTaking τ → OnlyTransfers τ →
    s.clean = true → s.rst = false → s.platform.hasUnit = true → (∀ r ∈ s.pending, r.op.toNat ≤ 4) →
    ∃ n t, runOn (eventsOf τ) n s = .next t ∧
      s.out.map some ++ s.pending.map Request.value? <+: t.out.map some

/-- 70_reset_and_hazards.md R168, second condition: if the unit is fair to ACCEPT and the host keeps offering, whatever the host does
on the response channel, the offered request is accepted when `pending` is not full. The fairness is the spec's assumption, in
the form of log entry 6. -/
def Obligations.OfferingHostGetsRequestAccepted : Prop :=
  ∀ (τ : Nat → Turn) (s : State) (r : Request), AcceptFair τ s → HostKeepsOffering τ → OnlyTransfers τ →
    s.clean = true → s.rst = false → s.platform.hasUnit = true → (∀ q ∈ s.pending, q.op.toNat ≤ 4) →
    s.pending.length < s.platform.queueDepth → s.program[s.position]? = some r →
    ∃ n t, runOn (eventsOf τ) n s = .next t ∧ t.position = s.position + 1 ∧ t.pending.getLast? = some r

/-- 70_reset_and_hazards.md R168, R170: if the unit is weakly fair and the host keeps taking and offering, a run whose requests are
all defined ends, having delivered the value of every request pending or still to issue, in order. The fairness is the spec's
assumption, in the form of log entry 6. -/
def Obligations.FairScheduleEndsRun : Prop :=
  ∀ (τ : Nat → Turn) (s : State), WeaklyFair τ s → HostKeepsTaking τ → HostKeepsOffering τ → OnlyTransfers τ →
    s.Inv → s.clean = true → s.rst = false → s.platform.hasUnit = true →
    (∀ r ∈ s.pending, r.op.toNat ≤ 4) → (∀ r ∈ s.program.drop s.position, r.op.toNat ≤ 4) →
    ∃ n t, runOn (eventsOf τ) n s = .next t ∧ t.final = true ∧
      t.out.map some = s.out.map some ++ (s.pending ++ s.program.drop s.position).map Request.value?
end

