-- ==== Sys2Proof/Laws/Clmul.lean ====
section
/-! SUPPORT. The reference loop of CLMUL, bit by bit, from any iteration on. -/

namespace Sys2Proof.Machine

/-- What one iteration leaves in the accumulator, bit by bit. -/
theorem accStep_getLsbD (c : Bool) (acc w : Bits128) (k : Nat) :
    (if c then acc ^^^ w else acc).getLsbD k = (acc.getLsbD k ^^ (c && w.getLsbD k)) := by
  cases c <;> simp

/-- The loop XORs into bit `k` of the accumulator, for each of the `n` bits of `a` from bit `i` on that is set, the bit of
the working copy that its shifts bring to place `k`. -/
theorem clmulLoop_getLsbD (a : Bits64) (n : Nat) : ∀ (i : Nat) (acc w : Bits128) (k : Nat), k < 128 →
    (clmulLoop a n i acc w).getLsbD k =
      (List.range n).foldl
        (fun p j => p ^^ (a.getLsbD (i + j) && (decide (j ≤ k) && w.getLsbD (k - j)))) (acc.getLsbD k) := by
  induction n with
  | zero => intro i acc w k _; rfl
  | succ n ih =>
    intro i acc w k hk
    rw [clmulLoop, ih _ _ _ _ hk, List.range_succ_eq_map, List.foldl_cons, List.foldl_map, accStep_getLsbD]
    congr 1
    · funext p j
      have hbit : (w <<< 1).getLsbD (k - j) = (decide (j + 1 ≤ k) && w.getLsbD (k - (j + 1))) ∨ k < j := by
        by_cases hj : k < j
        · exact .inr hj
        · left
          rw [BitVec.getLsbD_shiftLeft]
          by_cases h1 : j + 1 ≤ k
          · simp [show k - j < 128 by omega, show ¬ k - j < 1 by omega, h1, show k - j - 1 = k - (j + 1) by omega]
          · simp [show k - j = 0 by omega, h1]
      rw [show i + 1 + j = i + (j + 1) by omega]
      obtain h | h := hbit
      · rw [h]
        by_cases h1 : j ≤ k
        · simp [h1]
        · simp [h1, show ¬ j + 1 ≤ k by omega]
      · simp [show ¬ j ≤ k by omega, show ¬ j + 1 ≤ k by omega]

end Sys2Proof.Machine
end

