-- ==== Sys2Proof/Laws/Decode.lean ====
section
/-! SUPPORT. What decoding answers, case by case, and the fields of a packed word. -/

namespace Sys2Proof

@[simp] theorem opField_packFields (op : Bits3) (b a : Bits64) : opField (packFields op b a) = op := by
  unfold opField packFields
  ext i hi
  simp only [BitVec.getElem_extractLsb', BitVec.getLsbD_append]
  rw [if_neg (by omega), if_neg (by omega), show 128 + i - 64 - 64 = i by omega, BitVec.getLsbD_eq_getElem]

@[simp] theorem bField_packFields (op : Bits3) (b a : Bits64) : bField (packFields op b a) = b := by
  unfold bField packFields
  ext i hi
  simp only [BitVec.getElem_extractLsb', BitVec.getLsbD_append]
  rw [if_neg (by omega), if_pos (by omega), show 64 + i - 64 = i by omega, BitVec.getLsbD_eq_getElem]

@[simp] theorem aField_packFields (op : Bits3) (b a : Bits64) : aField (packFields op b a) = a := by
  unfold aField packFields
  ext i hi
  simp only [BitVec.getElem_extractLsb', BitVec.getLsbD_append]
  rw [if_pos (by omega), show 0 + i = i by omega, BitVec.getLsbD_eq_getElem]

@[simp] theorem decode_packFields (op : Bits3) (b a : Bits64) :
    decode (packFields op b a) = decodeFields op b a := by
  simp [decode]

/-- Either one of the five operations, with the opcode and operands of the fields, or a reserved `op`. -/
theorem decodeFields_cases (op : Bits3) (b a : Bits64) :
    (op.toNat ≤ 4 ∧ ∃ i, decodeFields op b a = .op i ∧ opcodeOf i = op ∧ operandA i = a ∧ operandB i = b) ∨
      (5 ≤ op.toNat ∧ decodeFields op b a = .reserved op) := by
  by_cases h5 : 5 ≤ op.toNat
  · refine .inr ⟨h5, ?_⟩
    unfold decodeFields
    split <;> first | omega | rfl
  · refine .inl ⟨by omega, ?_⟩
    unfold decodeFields
    split
    case h_6 h0 h1 h2 h3 h4 =>
      exact absurd h5 (by
        have n0 : ¬ op.toNat = 0 := h0
        have n1 : ¬ op.toNat = 1 := h1
        have n2 : ¬ op.toNat = 2 := h2
        have n3 : ¬ op.toNat = 3 := h3
        have n4 : ¬ op.toNat = 4 := h4
        omega)
    all_goals
      next h => exact ⟨_, rfl, BitVec.eq_of_toNat_eq (by rw [h]; rfl), rfl, rfl⟩

/-- A word that decodes to an operation is that operation's encoding. -/
theorem decodeFields_eq_op {op : Bits3} {b a : Bits64} {i : Instr} (h : decodeFields op b a = .op i) :
    op.toNat ≤ 4 ∧ opcodeOf i = op ∧ operandA i = a ∧ operandB i = b := by
  obtain ⟨hop, j, hj, hfields⟩ | ⟨_, hr⟩ := decodeFields_cases op b a
  · obtain rfl : j = i := by simpa [hj] using h
    exact ⟨hop, hfields⟩
  · simp [hr] at h

/-- What decodes to a reserved value is that value, and it is 5, 6 or 7. -/
theorem decodeFields_eq_reserved {op op' : Bits3} {b a : Bits64} (h : decodeFields op b a = .reserved op') :
    op' = op ∧ 5 ≤ op.toNat := by
  obtain ⟨_, j, hj, _⟩ | ⟨hop, hr⟩ := decodeFields_cases op b a
  · simp [hj] at h
  · exact ⟨by simpa [hr, eq_comm] using h, hop⟩

namespace Machine

/-- The word of a request decodes as the request does. -/
@[simp] theorem decode_word (r : Request) : decode r.word = r.decoded := by
  simp [Request.word, Request.decoded]

/-- Taking the word of a request apart gives the request. -/
@[simp] theorem ofWord_word (r : Request) : Request.ofWord r.word = r := by
  cases r
  simp [Request.ofWord, Request.word]

end Machine

end Sys2Proof
end

