-- ==== Sys2Proof/Laws/State.lean ====
section
/-! SUPPORT. What each update of the state does to each field: one lemma per field per update. -/

/-- The one refusal a run records is answered as NoUnit. -/
@[simp] theorem Sys2Proof.Machine.RecordedRefusal.outcome_eq (r : Sys2Proof.Machine.RecordedRefusal) :
    r.outcome = .noUnit := by
  cases r
  rfl

namespace Sys2Proof.Machine.State

@[simp] theorem deliver_platform (v : Bits128) (s : State) : (s.deliver v).platform = s.platform := rfl
@[simp] theorem deliver_rst (v : Bits128) (s : State) : (s.deliver v).rst = s.rst := rfl
@[simp] theorem deliver_pending (v : Bits128) (s : State) : (s.deliver v).pending = s.pending := rfl
@[simp] theorem deliver_program (v : Bits128) (s : State) : (s.deliver v).program = s.program := rfl
@[simp] theorem deliver_position (v : Bits128) (s : State) : (s.deliver v).position = s.position := rfl
@[simp] theorem deliver_out (v : Bits128) (s : State) : (s.deliver v).out = s.out ++ [v] := rfl
@[simp] theorem deliver_fault (v : Bits128) (s : State) : (s.deliver v).fault = s.fault := rfl
@[simp] theorem deliver_refused (v : Bits128) (s : State) : (s.deliver v).refused = s.refused := rfl
@[simp] theorem deliver_script (v : Bits128) (s : State) : (s.deliver v).script = s.script := rfl
@[simp] theorem deliver_freeCount (v : Bits128) (s : State) : (s.deliver v).freeCount = s.freeCount := rfl

@[simp] theorem enqueue_platform (r : Request) (s : State) : (s.enqueue r).platform = s.platform := rfl
@[simp] theorem enqueue_rst (r : Request) (s : State) : (s.enqueue r).rst = s.rst := rfl
@[simp] theorem enqueue_pending (r : Request) (s : State) : (s.enqueue r).pending = s.pending ++ [r] := rfl
@[simp] theorem enqueue_program (r : Request) (s : State) : (s.enqueue r).program = s.program := rfl
@[simp] theorem enqueue_position (r : Request) (s : State) : (s.enqueue r).position = s.position + 1 := rfl
@[simp] theorem enqueue_out (r : Request) (s : State) : (s.enqueue r).out = s.out := rfl
@[simp] theorem enqueue_fault (r : Request) (s : State) : (s.enqueue r).fault = s.fault := rfl
@[simp] theorem enqueue_refused (r : Request) (s : State) : (s.enqueue r).refused = s.refused := rfl
@[simp] theorem enqueue_script (r : Request) (s : State) : (s.enqueue r).script = s.script := rfl
@[simp] theorem enqueue_freeCount (r : Request) (s : State) : (s.enqueue r).freeCount = s.freeCount := rfl

@[simp] theorem retire_platform (s : State) : (s.retire).platform = s.platform := rfl
@[simp] theorem retire_rst (s : State) : (s.retire).rst = s.rst := rfl
@[simp] theorem retire_pending (s : State) : (s.retire).pending = s.pending.tail := rfl
@[simp] theorem retire_program (s : State) : (s.retire).program = s.program := rfl
@[simp] theorem retire_position (s : State) : (s.retire).position = s.position := rfl
@[simp] theorem retire_out (s : State) : (s.retire).out = s.out := rfl
@[simp] theorem retire_fault (s : State) : (s.retire).fault = s.fault := rfl
@[simp] theorem retire_refused (s : State) : (s.retire).refused = s.refused := rfl
@[simp] theorem retire_script (s : State) : (s.retire).script = s.script := rfl
@[simp] theorem retire_freeCount (s : State) : (s.retire).freeCount = s.freeCount := rfl

@[simp] theorem deliverReserved_platform (s : State) : (s.deliverReserved).platform = s.platform := rfl
@[simp] theorem deliverReserved_rst (s : State) : (s.deliverReserved).rst = s.rst := rfl
@[simp] theorem deliverReserved_pending (s : State) : (s.deliverReserved).pending = s.pending := rfl
@[simp] theorem deliverReserved_program (s : State) : (s.deliverReserved).program = s.program := rfl
@[simp] theorem deliverReserved_position (s : State) : (s.deliverReserved).position = s.position := rfl
@[simp] theorem deliverReserved_out (s : State) : (s.deliverReserved).out = s.out ++ [Config.reservedResult s.freeCount] := rfl
@[simp] theorem deliverReserved_fault (s : State) : (s.deliverReserved).fault = s.fault := rfl
@[simp] theorem deliverReserved_refused (s : State) : (s.deliverReserved).refused = s.refused := rfl
@[simp] theorem deliverReserved_script (s : State) : (s.deliverReserved).script = s.script := rfl
@[simp] theorem deliverReserved_freeCount (s : State) : (s.deliverReserved).freeCount = s.freeCount + 1 := rfl

@[simp] theorem assertRst_platform (s : State) : (s.assertRst).platform = s.platform := rfl
@[simp] theorem assertRst_rst (s : State) : (s.assertRst).rst = true := rfl
@[simp] theorem assertRst_pending (s : State) : (s.assertRst).pending = [] := rfl
@[simp] theorem assertRst_program (s : State) : (s.assertRst).program = s.program := rfl
@[simp] theorem assertRst_position (s : State) : (s.assertRst).position = s.position := rfl
@[simp] theorem assertRst_out (s : State) : (s.assertRst).out = s.out := rfl
@[simp] theorem assertRst_fault (s : State) : (s.assertRst).fault = s.fault := rfl
@[simp] theorem assertRst_refused (s : State) : (s.assertRst).refused = s.refused := rfl
@[simp] theorem assertRst_script (s : State) : (s.assertRst).script = s.script := rfl
@[simp] theorem assertRst_freeCount (s : State) : (s.assertRst).freeCount = s.freeCount := rfl

@[simp] theorem releaseRst_platform (s : State) : (s.releaseRst).platform = s.platform := rfl
@[simp] theorem releaseRst_rst (s : State) : (s.releaseRst).rst = false := rfl
@[simp] theorem releaseRst_pending (s : State) : (s.releaseRst).pending = s.pending := rfl
@[simp] theorem releaseRst_program (s : State) : (s.releaseRst).program = s.program := rfl
@[simp] theorem releaseRst_position (s : State) : (s.releaseRst).position = s.position := rfl
@[simp] theorem releaseRst_out (s : State) : (s.releaseRst).out = s.out := rfl
@[simp] theorem releaseRst_fault (s : State) : (s.releaseRst).fault = s.fault := rfl
@[simp] theorem releaseRst_refused (s : State) : (s.releaseRst).refused = s.refused := rfl
@[simp] theorem releaseRst_script (s : State) : (s.releaseRst).script = s.script := rfl
@[simp] theorem releaseRst_freeCount (s : State) : (s.releaseRst).freeCount = s.freeCount := rfl

@[simp] theorem recordFault_platform (f : Fault) (n : Nat) (s : State) : (s.recordFault f n).platform = s.platform := by
  unfold recordFault; split <;> rfl
@[simp] theorem recordFault_rst (f : Fault) (n : Nat) (s : State) : (s.recordFault f n).rst = s.rst := by
  unfold recordFault; split <;> rfl
@[simp] theorem recordFault_pending (f : Fault) (n : Nat) (s : State) : (s.recordFault f n).pending = s.pending := by
  unfold recordFault; split <;> rfl
@[simp] theorem recordFault_program (f : Fault) (n : Nat) (s : State) : (s.recordFault f n).program = s.program := by
  unfold recordFault; split <;> rfl
@[simp] theorem recordFault_position (f : Fault) (n : Nat) (s : State) : (s.recordFault f n).position = s.position := by
  unfold recordFault; split <;> rfl
@[simp] theorem recordFault_out (f : Fault) (n : Nat) (s : State) : (s.recordFault f n).out = s.out := by
  unfold recordFault; split <;> rfl
@[simp] theorem recordFault_fault (f : Fault) (n : Nat) (s : State) :
    (s.recordFault f n).fault = if s.stopped then s.fault else some (f, n) := by
  unfold recordFault; split <;> rfl
@[simp] theorem recordFault_refused (f : Fault) (n : Nat) (s : State) : (s.recordFault f n).refused = s.refused := by
  unfold recordFault; split <;> rfl
@[simp] theorem recordFault_script (f : Fault) (n : Nat) (s : State) : (s.recordFault f n).script = s.script := by
  unfold recordFault; split <;> rfl
@[simp] theorem recordFault_freeCount (f : Fault) (n : Nat) (s : State) : (s.recordFault f n).freeCount = s.freeCount := by
  unfold recordFault; split <;> rfl

@[simp] theorem recordRefusal_platform (r : RecordedRefusal) (n : Nat) (s : State) : (s.recordRefusal r n).platform = s.platform := by
  unfold recordRefusal; split <;> rfl
@[simp] theorem recordRefusal_rst (r : RecordedRefusal) (n : Nat) (s : State) : (s.recordRefusal r n).rst = s.rst := by
  unfold recordRefusal; split <;> rfl
@[simp] theorem recordRefusal_pending (r : RecordedRefusal) (n : Nat) (s : State) : (s.recordRefusal r n).pending = s.pending := by
  unfold recordRefusal; split <;> rfl
@[simp] theorem recordRefusal_program (r : RecordedRefusal) (n : Nat) (s : State) : (s.recordRefusal r n).program = s.program := by
  unfold recordRefusal; split <;> rfl
@[simp] theorem recordRefusal_position (r : RecordedRefusal) (n : Nat) (s : State) : (s.recordRefusal r n).position = s.position := by
  unfold recordRefusal; split <;> rfl
@[simp] theorem recordRefusal_out (r : RecordedRefusal) (n : Nat) (s : State) : (s.recordRefusal r n).out = s.out := by
  unfold recordRefusal; split <;> rfl
@[simp] theorem recordRefusal_fault (r : RecordedRefusal) (n : Nat) (s : State) : (s.recordRefusal r n).fault = s.fault := by
  unfold recordRefusal; split <;> rfl
@[simp] theorem recordRefusal_refused (r : RecordedRefusal) (n : Nat) (s : State) :
    (s.recordRefusal r n).refused = if s.stopped then s.refused else some (r, n) := by
  unfold recordRefusal; split <;> rfl
@[simp] theorem recordRefusal_script (r : RecordedRefusal) (n : Nat) (s : State) : (s.recordRefusal r n).script = s.script := by
  unfold recordRefusal; split <;> rfl
@[simp] theorem recordRefusal_freeCount (r : RecordedRefusal) (n : Nat) (s : State) : (s.recordRefusal r n).freeCount = s.freeCount := by
  unfold recordRefusal; split <;> rfl

theorem stopped_eq_false_iff (s : State) : s.stopped = false ↔ s.fault = none ∧ s.refused = none := by
  simp [stopped]

@[simp] theorem clean_iff (s : State) : s.clean = true ↔ s.fault = none ∧ s.refused = none := by
  simp [clean, stopped_eq_false_iff]

@[simp] theorem final_iff (s : State) :
    s.final = true ↔ (s.position = s.program.length ∧ s.pending = []) ∧ s.fault = none ∧ s.refused = none := by
  simp [final]

@[simp] theorem reqReady_iff (s : State) :
    s.reqReady = true ↔ s.rst = false ∧ s.pending.length < s.platform.queueDepth := by
  simp [reqReady]

@[simp] theorem respValid_iff (s : State) : s.respValid = true ↔ s.rst = false ∧ s.pending ≠ [] := by
  simp [respValid]

end Sys2Proof.Machine.State
end

