-- ==== Sys2Proof/Laws/Events.lean ====
section
/-! SUPPORT. What an instruction, an event and a step can do, said once: the lemmas that claims cite instead of
unfolding `exec`, `perform` and `step`. -/

namespace Sys2Proof.Machine

/-- Every instruction delivers its response and changes nothing else. -/
theorem exec_eq (i : Instr) (s : State) : exec i s = .next (s.deliver (responseOf i)) := by
  cases i <;> rfl

/-- A run that is not stopped answers what the event does. -/
theorem unlessStopped_of_clean {s : State} (h : s.clean = true) (o : Host.Outcome State Fault Refusal) :
    unlessStopped s o = o := by
  obtain ⟨hf, hr⟩ := (State.clean_iff s).1 h
  simp [unlessStopped, hf, hr]

/-- Only a run that is not stopped goes on to a next state. -/
theorem unlessStopped_eq_next {s t : State} {o : Host.Outcome State Fault Refusal}
    (h : unlessStopped s o = .next t) : s.clean = true ∧ o = .next t := by
  unfold unlessStopped at h
  split at h
  · cases h
  · cases h
  · next hr hf => exact ⟨by simp [hr, hf], h⟩

/-- What ACCEPT can do. -/
theorem acceptEvent_cases (s : State) :
    acceptEvent s = s ∨
      (∃ r, s.offered = some r ∧ s.rst = false ∧ s.platform.hasUnit = false ∧
        acceptEvent s = s.recordRefusal .noUnit s.position) ∨
      (∃ r, s.offered = some r ∧ s.platform.hasUnit = true ∧ s.rst = false ∧
        s.pending.length < s.platform.queueDepth ∧ acceptEvent s = s.enqueue r) := by
  unfold acceptEvent
  split
  · exact .inl rfl
  · next r hr =>
    split
    · exact .inl rfl
    · next hrst =>
      split
      · next hu => exact .inr (.inl ⟨r, hr, by simpa using hrst, by simpa using hu, rfl⟩)
      · next hu =>
        split
        · next hq =>
          obtain ⟨h1, h2⟩ := (State.reqReady_iff s).1 hq
          exact .inr (.inr ⟨r, hr, by simpa using hu, h1, h2, rfl⟩)
        · exact .inl rfl

/-- The index recorded for a reserved request is the number of requests issued before it, when the pending requests are the
last ones issued. -/
theorem oldestIndex_eq {s : State} {issued : List Request} (hp : s.position ≤ s.program.length)
    (h : s.program.take s.position = issued ++ s.pending) : s.oldestIndex = issued.length := by
  have hlen := congrArg List.length h
  simp at hlen
  unfold State.oldestIndex
  omega

/-- What RESPOND can do: nothing, a response, or a response to a reserved request with the fault recorded. -/
theorem respondEvent_cases (s : State) :
    (respondEvent s = .next s ∧ (s.pending = [] ∨ s.rst = true)) ∨
      (∃ r rest i, s.pending = r :: rest ∧ s.rst = false ∧ r.decoded = .op i ∧
        respondEvent s = .next (s.retire.deliver (responseOf i))) ∨
      (∃ r rest, s.pending = r :: rest ∧ s.rst = false ∧ r.decoded = .reserved r.op ∧ 5 ≤ r.op.toNat ∧
        respondEvent s = .next (s.retire.deliverReserved.recordFault (.reservedOp r.op) s.oldestIndex)) := by
  unfold respondEvent
  split
  · next hp => exact .inl ⟨rfl, .inl hp⟩
  · next r rest hp =>
    split
    · next hrst => exact .inl ⟨rfl, .inr hrst⟩
    · next hrst =>
      split
      · next i hi => exact .inr (.inl ⟨r, rest, i, hp, by simpa using hrst, hi, exec_eq i _⟩)
      · next op hop =>
        obtain ⟨rfl, h5⟩ := decodeFields_eq_reserved hop
        exact .inr (.inr ⟨r, rest, hp, by simpa using hrst, hop, h5, rfl⟩)

/-- What one event can do, if it leaves the run going. -/
theorem perform_cases {e : Event} {s t : State} (h : perform e s = .next t) :
    (e = .reset ∧ t = s.assertRst.releaseRst) ∨ (e = .assertRst ∧ t = s.assertRst) ∨
      (e = .releaseRst ∧ t = s.releaseRst) ∨
      (s.clean = true ∧ ((e = .idle ∧ t = s) ∨ (e = .accept ∧ t = acceptEvent s) ∨
        (e = .respond ∧ respondEvent s = .next t) ∨ (e = .sampleResult ∧ t = sampleEvent s))) := by
  cases e <;> simp only [perform] at h
  case reset => exact .inl ⟨rfl, by simpa [eq_comm] using h⟩
  case assertRst => exact .inr (.inl ⟨rfl, by simpa [eq_comm] using h⟩)
  case releaseRst => exact .inr (.inr (.inl ⟨rfl, by simpa [eq_comm] using h⟩))
  all_goals
    obtain ⟨hc, hn⟩ := unlessStopped_eq_next h
    refine .inr (.inr (.inr ⟨hc, ?_⟩))
    simpa [eq_comm] using hn

/-- A step performs the next event on the state without it; only the script differs. -/
theorem step_eq (s : State) : step s = perform (nextEvent s).1 (nextEvent s).2 := rfl

/-- Taking the next event changes the script alone. -/
theorem nextEvent_state (s : State) : (nextEvent s).2 = { s with script := s.script.tail } := by
  unfold nextEvent
  split
  · next h => cases s; simp_all
  · next h => simp [h]

end Sys2Proof.Machine
end

