-- ==== Sys2Proof/Laws/Morton.lean ====
section
/-! SUPPORT. The range test and the two branches of the magic operations, and the halves of a zero-extended result. -/

namespace Sys2Proof.Machine

@[simp] theorem inRange_iff (v : Bits64) : inRange v = true ↔ v.toNat < 65536 := by
  simp [inRange]

theorem dilateMagic_of_inRange {a : Bits64} (h : a.toNat < 65536) : dilateMagic a = respHalf0 (dilate a) :=
  if_pos ((inRange_iff a).2 h)

theorem dilateMagic_of_wide {a : Bits64} (h : 65536 ≤ a.toNat) : dilateMagic a = Config.magicDilateWide a :=
  if_neg (by simpa using h)

theorem mortonMagic_of_inRange {x y : Bits64} (hx : x.toNat < 65536) (hy : y.toNat < 65536) :
    mortonMagic x y = respHalf0 (morton x y) :=
  if_pos (by simp [hx, hy])

theorem mortonMagic_of_wide {x y : Bits64} (h : 65536 ≤ x.toNat ∨ 65536 ≤ y.toNat) :
    mortonMagic x y = Config.magicMortonWide x y :=
  if_neg (by simp; omega)

@[simp] theorem zext128_half0 (v : Bits64) : respHalf0 (zext128 v) = v := by
  refine BitVec.eq_of_getLsbD_eq fun i hi => ?_
  simp [respHalf0, zext128, hi]
  omega

@[simp] theorem zext128_half1 (v : Bits64) : respHalf1 (zext128 v) = 0 := by
  ext i hi
  simp [respHalf1, zext128]

end Sys2Proof.Machine
end

