-- ==== Sys2Proof/Laws/PerInstr.lean ====
section
/-! SUPPORT. What holds of every instruction as syntax, one lemma per constructor. -/

/-- The request word of an instruction holds its opcode in bits 130:128 and its operands in bits 127:64 and 63:0, and it
is well formed (30_encoding.md R60, R62, R66). -/
def Sys2Proof.Laws.RequestWord.Statement (i : Sys2Proof.Instr) : Prop :=
  i.wf = true ∧ Sys2Proof.opField (Sys2Proof.encode i) = Sys2Proof.opcodeOf i ∧
    Sys2Proof.bField (Sys2Proof.encode i) = Sys2Proof.operandB i ∧
    Sys2Proof.aField (Sys2Proof.encode i) = Sys2Proof.operandA i ∧ (Sys2Proof.opcodeOf i).toNat ≤ 4

namespace Sys2Proof.Laws.RequestWord

theorem clmul (a b : Bits64) : Statement (.clmul a b) := by
  simp [Statement, Instr.wf, encode, opcodeOf]

theorem dilate (a b : Bits64) : Statement (.dilate a b) := by
  simp [Statement, Instr.wf, encode, opcodeOf]

theorem morton (x y : Bits64) : Statement (.morton x y) := by
  simp [Statement, Instr.wf, encode, opcodeOf]

theorem dilateMagic (a b : Bits64) : Statement (.dilateMagic a b) := by
  simp [Statement, Instr.wf, encode, opcodeOf]

theorem mortonMagic (x y : Bits64) : Statement (.mortonMagic x y) := by
  simp [Statement, Instr.wf, encode, opcodeOf]

end Sys2Proof.Laws.RequestWord
end

