-- ==== Sys2Proof/Laws/Run.lean ====
section
/-! SUPPORT. Runs of several steps and of several events, taken apart at their first or last step. -/

namespace Sys2Proof.Machine

/-- A run of `n + 1` steps that ends in a next state is a step and a run of `n` steps. -/
theorem run_succ_eq_next {M : Host.Core} {n : Nat} {s t : M.State} (h : M.run (n + 1) s = .next t) :
    ∃ u, M.step s = .next u ∧ M.run n u = .next t := by
  unfold Host.Core.run at h
  split at h
  · next u hu => exact ⟨u, hu, h⟩
  · cases h
  · cases h

/-- A run of no step is where it started. -/
theorem run_zero_eq_next {M : Host.Core} {s t : M.State} (h : M.run 0 s = .next t) : s = t := by
  unfold Host.Core.run at h
  cases h
  rfl

/-- A schedule's first `n` events and the next one. -/
theorem runOn_succ {σ : Nat → Event} {n : Nat} {s t : State} (h : runOn σ n s = .next t) :
    runOn σ (n + 1) s = perform (σ n) t := by
  rw [runOn, h]

/-- A time at which the unit offers the oldest response and the host takes it. -/
@[simp] theorem Turn.happens_respond {u : Turn} : u.happens = .respond ↔ u.chance = .respond ∧ u.taking = true := by
  rcases u with ⟨o, t, c⟩
  cases c <;> cases o <;> cases t <;> decide

/-- A time at which the unit is ready to accept and the host offers. -/
@[simp] theorem Turn.happens_accept {u : Turn} : u.happens = .accept ↔ u.chance = .accept ∧ u.offering = true := by
  rcases u with ⟨o, t, c⟩
  cases c <;> cases o <;> cases t <;> decide

/-- The induction behind a liveness claim, once: if every turn from a state in `C` leads into `D` or back into `C`, the event `e` leads
into `D`, and `e` eventually happens as long as the run stays in `C`, then the run comes into `D`. -/
theorem eventually_of_fair {τ : Nat → Turn} {s : State} {C D : State → Prop} {e : Event}
    (hturn : ∀ t n, C t → ∃ u, perform (eventsOf τ n) t = .next u ∧ (D u ∨ C u) ∧ (eventsOf τ n = e → D u))
    (hfair : ∀ n, (∀ m, n ≤ m → ∃ t, runOn (eventsOf τ) m s = .next t ∧ C t) → ∃ m, n ≤ m ∧ eventsOf τ m = e)
    {n : Nat} {t : State} (ht : runOn (eventsOf τ) n s = .next t) (hC : C t) :
    ∃ m u, n ≤ m ∧ runOn (eventsOf τ) m s = .next u ∧ D u := by
  by_contra hno
  have hnoD : ∀ m u, n ≤ m → runOn (eventsOf τ) m s = .next u → ¬ D u :=
    fun m u hm hu hD => hno ⟨m, u, hm, hu, hD⟩
  have hstays : ∀ d, ∃ u, runOn (eventsOf τ) (n + d) s = .next u ∧ C u := by
    intro d
    induction d with
    | zero => exact ⟨t, ht, hC⟩
    | succ d ih =>
      obtain ⟨u, hu, hCu⟩ := ih
      obtain ⟨v, hv, hDC, _⟩ := hturn u (n + d) hCu
      have hrun : runOn (eventsOf τ) (n + (d + 1)) s = .next v := (runOn_succ hu).trans hv
      exact ⟨v, hrun, hDC.resolve_left (hnoD _ _ (by omega) hrun)⟩
  obtain ⟨m, hm, hme⟩ := hfair n fun m hm => by
    obtain ⟨d, rfl⟩ := Nat.exists_eq_add_of_le hm
    exact hstays d
  obtain ⟨d, rfl⟩ := Nat.exists_eq_add_of_le hm
  obtain ⟨u, hu, hCu⟩ := hstays d
  obtain ⟨v, hv, _, hDv⟩ := hturn u (n + d) hCu
  exact hnoD (n + d + 1) v (by omega) ((runOn_succ hu).trans hv) (hDv hme)

end Sys2Proof.Machine
end

