-- ==== Sys2Proof/Tests/Slice0.lean ====
section
/-! SUPPORT. The model's own tests, with expected values from spec/95_test_vectors.md and the rules' own tables, and a
witness for the hypotheses of every statement. -/

namespace Sys2Proof.Tests

open Sys2Proof.Machine

/-- The response that an instruction delivers from the reset state. -/
def responseIn (i : Instr) : Option Bits128 :=
  match exec i State.reset with
  | .next t => t.out.head?
  | _ => none

/-- A platform with the unit and two slots in flight. -/
def twoSlots : Config.Platform where
  hasUnit := true
  queueDepth := 2

/-- A platform without the unit. -/
def noUnit : Config.Platform where
  hasUnit := false
  queueDepth := 1

def clmul33 : Request := ⟨0, 3, 3⟩
def dilate1 : Request := ⟨1, 1, 0⟩
def reserved7 : Request := ⟨7, 0, 0⟩

/-- A run with `ps` in flight and `CLMUL 3, 3` offered next, about to perform `e`. -/
def flying (p : Config.Platform) (ps : List Request) (e : Event) : State :=
  { State.reset with
    platform := p
    pending := ps
    program := ps ++ [clmul33]
    position := ps.length
    script := [e] }

/-! ## Well-formedness: an ill-formed term for each check -/

theorem test_platform_without_slot_is_ill_formed : Config.Platform.wf ⟨true, 0⟩ = false := by decide
theorem test_literal_of_65_bits_is_ill_formed : literalFits (2 ^ 64) = false := by decide
theorem test_raw_word_of_132_bits_is_ill_formed : rawWordFits (2 ^ 131) = false := by decide
theorem test_every_operand_is_well_formed :
    (Instr.wf (.clmul 0xffffffffffffffff 0) && Instr.wf (.mortonMagic 0x10000 0)) = true := by decide

/-! ## Decoding: request words written out from 30_encoding.md R60 and R62 -/

/-- V66, op 000. -/
theorem test_decode_clmul : decode 0x000000000000000030000000000000002#131 = .op (.clmul 2 3) := by decide
/-- V67, op 001, `b` all ones. -/
theorem test_decode_dilate :
    decode 0x1ffffffffffffffff000000000000000d#131 = .op (.dilate 13 0xffffffffffffffff) := by decide
/-- V68, op 010: x from `a`, y from `b`. -/
theorem test_decode_morton : decode 0x200000000000000010000000000000000#131 = .op (.morton 0 1) := by decide
/-- V76, op 011. -/
theorem test_decode_dilate_magic :
    decode 0x300000000000012340000000000000005#131 = .op (.dilateMagic 5 0x1234) := by decide
/-- P3 r3, op 100. -/
theorem test_decode_morton_magic :
    decode 0x40000000000005cd5000000000000021f#131 = .op (.mortonMagic 543 23765) := by decide
/-- V71 to V73. -/
theorem test_decode_reserved :
    decode 0x500000000000000010000000000000001#131 = .reserved 5 ∧
      decode 0x600000000000000000000000000000000#131 = .reserved 6 ∧
      decode 0x7ffffffffffffffffffffffffffffffff#131 = .reserved 7 := by decide
/-- P2 r0. -/
theorem test_encode_clmul :
    encode (.clmul 0xfedcba9876543210 0x0706050403020100) = 0x00706050403020100fedcba9876543210#131 := by decide
/-- The table's bit numbering: `b` from bit 64 on, `op` from bit 128 on; a bit above 130 is no request. -/
theorem test_table_word :
    decodeTableWord 131 (2 ^ 129 + 2 ^ 64) = some (.morton 0 1) ∧ decodeTableWord 136 (2 ^ 131) = none := by decide
/-- The first step after reset runs the placed instruction. -/
theorem test_fetch_word_runs :
    step (State.reset.withFetchWord 136 (2 ^ 129 + 2 ^ 64)) = exec (.morton 0 1) State.reset := rfl

/-! ## Instructions -/

/-- V24. -/
theorem test_clmul_mixed :
    responseIn (.clmul 0x0123456789abcdef 0xfedcba9876543210) = some 0x00e038d8688850b040a0789828c810f0 := by decide
set_option maxRecDepth 4000 in
/-- V17: top bit times all ones. -/
theorem test_clmul_top_bit :
    responseIn (.clmul 0x8000000000000000 0xffffffffffffffff) = some 0x7fffffffffffffff8000000000000000 := by decide
/-- V35, with a field `b` that must not matter. -/
theorem test_dilate_mixed :
    responseIn (.dilate 0x0123456789abcdef 0xffffffffffffffff) = some 0x00010405101114154041444550515455 := by decide
/-- V36. -/
theorem test_dilate_alternating :
    responseIn (.dilate 0xaaaaaaaaaaaaaaaa 0) = some 0x44444444444444444444444444444444 := by decide
/-- V42: the source's round-trip example. -/
theorem test_morton_example : responseIn (.morton 543 23765) = some 0x22a4a377 := by decide
/-- V44: y alone, to the top bit. -/
theorem test_morton_y_only :
    responseIn (.morton 0 0xffffffffffffffff) = some 0xaaaaaaaaaaaaaaaaaaaaaaaaaaaaaaaa := by decide
/-- V54. -/
theorem test_dilate_magic_mixed : responseIn (.dilateMagic 0x1234 0) = some 0x01040510 := by decide
/-- V55: the smallest operand out of range gives the open parameter. -/
theorem test_dilate_magic_out_of_range :
    responseIn (.dilateMagic 0x10000 0) = some (zext128 (Config.magicDilateWide 0x10000)) := rfl
/-- V62. -/
theorem test_morton_magic_y_only : responseIn (.mortonMagic 0 0xffff) = some 0xaaaaaaaa := by decide
/-- V65: one operand in range, one out of range. -/
theorem test_morton_magic_out_of_range :
    responseIn (.mortonMagic 0xffff 0x10000) = some (zext128 (Config.magicMortonWide 0xffff 0x10000)) := rfl

/-! ## Events -/

/-- V77: at QUEUE_DEPTH 1 a second ACCEPT is not enabled. -/
theorem test_full_queue_blocks_accept :
    acceptEvent (flying ⟨true, 1⟩ [clmul33] .accept) = flying ⟨true, 1⟩ [clmul33] .accept := by decide
/-- V80: RESET drops both pending requests; neither is delivered. -/
theorem test_reset_drops_pending :
    (flying twoSlots [dilate1, clmul33] .reset).assertRst.releaseRst.pending = [] ∧
      (flying twoSlots [dilate1, clmul33] .reset).assertRst.releaseRst.out = [] := by decide
/-- P6: the reserved request's RESPOND records the fault at its index and still delivers one response. -/
theorem test_reserved_respond :
    ∃ t, step (flying twoSlots [clmul33, reserved7] .respond).retire = .next t ∧
      t.fault = some (.reservedOp 7, 1) ∧ t.out.length = 1 ∧ t.pending = [] :=
  ⟨_, rfl, rfl, rfl, rfl⟩
/-- V83: an absent unit refuses a reserved request as any other. -/
theorem test_absent_unit_refuses :
    (acceptEvent { State.reset with platform := noUnit, program := [reserved7] }).refused = some (.noUnit, 0) ∧
      (acceptEvent { State.reset with platform := noUnit, program := [reserved7] }).fault = none := by decide
/-- V81. -/
theorem test_sample_faults : (sampleEvent State.reset).fault = some (.noResultValue, 0) := by decide
/-- V84: RESET keeps a recorded fault. -/
theorem test_reset_keeps_fault :
    (sampleEvent State.reset).assertRst.releaseRst.fault = some (.noResultValue, 0) := by decide

/-! ## Assembler, 30_encoding.md R69 -/

/-- P1 r4, with a response name: `r4 = DILATE 0xd`. -/
theorem test_assemble_named :
    assembleLine ['r', '4', ' ', '=', ' ', 'D', 'I', 'L', 'A', 'T', 'E', ' ', '0', 'x', 'd'] =
      some 0x10000000000000000000000000000000d#131 := by decide
/-- P4 r2 in decimal: `MORTON 0, 1`. -/
theorem test_assemble_two_operands :
    assembleLine ['M', 'O', 'R', 'T', 'O', 'N', ' ', '0', ',', ' ', '1'] =
      some 0x200000000000000010000000000000000#131 := by decide
/-- P6's second line as it is written: `.req 0x7_0000000000000000_0000000000000000`. -/
theorem test_assemble_raw_separators :
    assembleLine (['.', 'r', 'e', 'q', ' ', '0', 'x', '7', '_'] ++ List.replicate 16 '0' ++ ['_'] ++
      List.replicate 16 '0') = some 0x700000000000000000000000000000000#131 := by decide
/-- A reserved `op` has no mnemonic and is written raw. -/
theorem test_assemble_raw :
    assembleLine ['.', 'r', 'e', 'q', ' ', '0', 'x', '7'] = some 7#131 ∧
      assembleLine ['R', 'E', 'S', ' ', '1'] = none := by decide

/-! ## Witnesses: states and operands that meet the hypotheses of the statements -/

set_option maxRecDepth 4000 in
/-- ClmulResultWidth: operands that are not 0 with their top bits at the top; the clause on higher bits starts at 127. -/
theorem witness_result_width :
    (0x8000000000000000#64 ≠ 0) ∧ highBit 0x8000000000000000#64 + highBit 0x8000000000000000#64 < 127 ∧
      responseIn (.clmul 0x8000000000000000 0x8000000000000000) = some (1#128 <<< 126) := by decide

/-- ClmulAlgebraicLaws: the power of two at both ends of its range. -/
theorem witness_power_of_two :
    responseIn (.clmul 3 (1#64 <<< 0)) = some 3 ∧ 63 < 64 ∧
      responseIn (.clmul 3 (1#64 <<< 63)) = some (3#128 <<< 63) := by decide

set_option maxRecDepth 4000 in
/-- ClmulRespondsParityProduct, SquaringIsDilation, MortonInterleavesBijectively: the last bit of each range. -/
theorem witness_last_bits :
    126 < 128 ∧ clmulParity 0x8000000000000000 0x8000000000000000 126 = true ∧ 63 < 64 ∧
      responseIn (.morton 0x8000000000000000 0x8000000000000000) = some (3#128 <<< 126) := by decide

/-- MortonInterleavesBijectively, last clause: MORTON does respond a given value. -/
theorem witness_responds : Responds (.morton 1 0) (morton 1 0) := fun s => exec_eq (.morton 1 0) s

/-- MagicResponsePlacement, MagicAgreesInRange, MortonMagicComposesInRange, UsualSpreadAgreesInRange: the two sides of the
range. -/
theorem witness_in_range :
    (0xffff#64).toNat < 65536 ∧ ¬ (0x10000#64).toNat < 65536 ∧
      responseIn (.dilateMagic 0xffff 0) = responseIn (.dilate 0xffff 0) ∧ usualSpread 0xffff = 0x55555555#32 := by
  decide

/-- UnaryOperationsIgnoreB, AssemblerAcceptsFittingLiterals: literals and raw words on both sides of their limits. -/
theorem witness_literals :
    assemble (.dilate (2 ^ 64 - 1)) = some 0x10000000000000000ffffffffffffffff#131 ∧
      assemble (.dilateMagic 5) = some 0x300000000000000000000000000000005#131 ∧
      assemble (.dilate (2 ^ 64)) = none ∧ assemble (.clmul 0 (2 ^ 64)) = none ∧ assemble (.morton (2 ^ 64) 0) = none ∧
      assemble (.raw (2 ^ 131 - 1)) = some 0x7ffffffffffffffffffffffffffffffff#131 ∧
      assemble (.raw (2 ^ 131)) = none := by decide

/-- InstructionFrame: every instruction answers a next state. -/
theorem witness_frame (i : Instr) : exec i State.reset = .next (State.reset.deliver (responseOf i)) :=
  exec_eq i State.reset

/-- DecodeEncodeAgree and DecodingIsTotal: a word of the last operation and one of the first reserved value. -/
theorem witness_decode :
    Instr.wf (.mortonMagic 1 2) = true ∧ decode (encode (.mortonMagic 1 2)) = .op (.mortonMagic 1 2) ∧
      ((0x400000000000000000000000000000000#131).extractLsb' 128 3).toNat ≤ 4 ∧
      4 < ((0x500000000000000000000000000000000#131).extractLsb' 128 3).toNat := by decide

/-- StepRunsDecodedInstruction. -/
theorem witness_step_runs :
    (flying twoSlots [clmul33] .respond).script = .respond :: [] ∧
      (flying twoSlots [clmul33] .respond).pending = clmul33 :: [] ∧
      (flying twoSlots [clmul33] .respond).rst = false ∧ (flying twoSlots [clmul33] .respond).clean = true ∧
      decode clmul33.word = .op (.clmul 3 3) ∧ Instr.wf (.clmul 3 3) = true := by decide

/-- StepPerformsNextEvent: a script with an event, and one without. -/
theorem witness_scripts :
    (flying twoSlots [] .accept).script = .accept :: [] ∧ State.reset.script = [] ∧ State.reset.clean = true := by decide

/-- AcceptTransfersOfferedRequest: a request offered to an absent unit, to a unit with one slot left, to a full one, and
nothing offered. -/
theorem witness_accept :
    (flying noUnit [] .accept).clean = true ∧ (flying noUnit [] .accept).program[0]? = some clmul33 ∧
      (flying noUnit [] .accept).rst = false ∧ (flying noUnit [] .accept).platform.hasUnit = false ∧
      (flying twoSlots [dilate1] .accept).program[1]? = some clmul33 ∧
      (flying twoSlots [dilate1] .accept).pending.length + 1 = (flying twoSlots [dilate1] .accept).platform.queueDepth ∧
      (flying twoSlots [dilate1, dilate1] .accept).pending.length =
        (flying twoSlots [dilate1, dilate1] .accept).platform.queueDepth ∧
      State.reset.program[0]? = none := by decide

/-- RespondDeliversOldest: a defined request, a reserved one with the requests issued before it, and nothing pending. -/
theorem witness_respond :
    clmul33.decoded = .op (.clmul 3 3) ∧ reserved7.decoded = .reserved 7 ∧
      (flying twoSlots [reserved7] .respond).pending = reserved7 :: [] ∧
      (flying twoSlots [reserved7] .respond).clean = true ∧
      (flying twoSlots [reserved7] .respond).position ≤ (flying twoSlots [reserved7] .respond).program.length ∧
      (flying twoSlots [reserved7] .respond).program.take 1 = [] ++ (flying twoSlots [reserved7] .respond).pending ∧
      State.reset.pending = [] := by decide

/-- AbsentUnitRefusesProgram: a reserved request offered on a platform without the unit. -/
theorem witness_absent_unit :
    { State.reset with platform := noUnit, program := [reserved7] }.clean = true ∧
      { State.reset with platform := noUnit, program := [reserved7] }.rst = false ∧
      { State.reset with platform := noUnit, program := [reserved7] }.program[0]? = some reserved7 := by decide

/-- ReservedRequestFaultsRun: a reserved request offered, with the smallest and the largest reserved value. -/
theorem witness_reserved_offered :
    (5#3).toNat = 5 ∧ 5 ≤ reserved7.op.toNat ∧
      { flying twoSlots [dilate1] .accept with program := [dilate1, reserved7] }.program[1]? = some reserved7 ∧
      (flying twoSlots [dilate1] .accept).pending.length < (flying twoSlots [dilate1] .accept).platform.queueDepth ∧
      Event.isResetLine .accept = false := by decide

/-- RecordedOutcomeIsKept, PlatformIsFixed, StoppedRunAnswersItsRecord: a faulted run, and a refused one, that RESET takes to a next state. -/
theorem witness_recorded :
    (∃ t, step { sampleEvent State.reset with script := [.reset] } = .next t ∧ t.fault = some (.noResultValue, 0)) ∧
      ∃ t, step { acceptEvent (flying noUnit [] .reset) with script := [.assertRst] } = .next t ∧
        t.refused = some (.noUnit, 0) :=
  ⟨⟨_, rfl, rfl⟩, ⟨_, rfl, rfl⟩⟩

/-- ReadOutsideResponseFaults, ResetDropsPendingRequests, ResetValuesOfPorts: a clean run, also with reset asserted. -/
theorem witness_in_reset :
    State.reset.clean = true ∧ State.reset.assertRst.clean = true ∧ State.reset.assertRst.rst = true ∧
      1 ≤ State.reset.platform.queueDepth := by decide

/-- TransfersNeedValidAndReady: the ports on both sides of each transfer. -/
theorem witness_ports :
    (flying twoSlots [dilate1] .accept).reqValid = true ∧ (flying twoSlots [dilate1] .accept).reqReady = true ∧
      (flying twoSlots [dilate1, dilate1] .accept).reqReady = false ∧
      (flying twoSlots [dilate1] .accept).respValid = true ∧ State.reset.respValid = false ∧
      State.reset.reqValid = false := by decide

/-- BackPressureUntilRespond: a full queue with a defined request at its head, at QUEUE_DEPTH 2 and 1. -/
theorem witness_back_pressure :
    (flying twoSlots [dilate1, dilate1] .accept).pending.length = twoSlots.queueDepth ∧
      (flying twoSlots [dilate1, dilate1] .accept).pending.head? = some dilate1 ∧ dilate1.op.toNat ≤ 4 ∧
      (flying twoSlots [dilate1, dilate1] .accept).program[2]? = some clmul33 ∧
      (flying ⟨true, 1⟩ [dilate1] .accept).platform.queueDepth = 1 ∧
      (flying ⟨true, 1⟩ [dilate1] .accept).pending ≠ [] := by decide

/-- EqualRequestsGetEqualResponses: equal requests, and unary ones that differ in `b`. -/
theorem witness_equal_requests :
    (flying twoSlots [clmul33] .respond).pending = clmul33 :: [] ∧ clmul33.op.toNat ≤ 4 ∧
      (Request.mk 1 5 0).op = (Request.mk 1 5 9).op ∧ (Request.mk 1 5 0).a = (Request.mk 1 5 9).a ∧
      (Request.mk 1 5 0).b ≠ (Request.mk 1 5 9).b ∧ (Request.mk 3 5 0).op = 3 := by decide

/-- RespondsDrainInOrder: two defined requests pending. -/
theorem witness_drain :
    (flying twoSlots [clmul33, dilate1] .respond).clean = true ∧
      ∀ r ∈ (flying twoSlots [clmul33, dilate1] .respond).pending, r.op.toNat ≤ 4 := by decide

/-- PositionNeverJumps: a step that is an ACCEPT and one that is not. -/
theorem witness_positions :
    (∃ t, step (flying twoSlots [dilate1] .accept) = .next t ∧ t.position = 2 ∧ t.pending = [dilate1, clmul33]) ∧
      ∃ t, step (flying twoSlots [dilate1] .respond) = .next t ∧ t.position = 1 ∧ t.pending = [] :=
  ⟨⟨_, rfl, rfl, rfl⟩, ⟨_, rfl, rfl, rfl⟩⟩

/-- RunStartsInInvariant. -/
theorem witness_platform : Config.Platform.wf twoSlots = true := by decide

/-- StepKeepsInvariant: a run with requests in flight that takes a step. -/
theorem witness_invariant :
    (flying twoSlots [clmul33] .accept).Inv ∧ ∃ t, step (flying twoSlots [clmul33] .accept) = .next t := by
  refine ⟨?_, _, rfl⟩
  simp [State.Inv, State.QueueBounded, State.PendingIssued, State.EmptyInReset, State.NothingWithoutUnit,
    State.FaultHasCause, State.RefusalHasCause, flying, twoSlots, State.reset]

/-- StepKeepsDeliveryOrder, StepWithoutResetLosesNothing: the same run, about to respond. -/
theorem witness_delivery :
    (flying twoSlots [clmul33] .respond).DeliveredInOrder ∧ (flying twoSlots [clmul33] .respond).DeliveredAll ∧
      (nextEvent (flying twoSlots [clmul33] .respond)).1.isReset = false ∧
      ∃ t, step (flying twoSlots [clmul33] .respond) = .next t := by
  refine ⟨?_, ?_, rfl, _, rfl⟩ <;> simp [State.DeliveredInOrder, State.DeliveredAll, flying, State.reset]

/-- EveryInterleavingDeliversSame: a run of one request that ends. -/
theorem witness_run_ends :
    (∀ e ∈ [Event.accept, Event.respond], e.isReset = false) ∧
      ∃ t, Host.Core.run core 2 (State.start twoSlots [clmul33] [.accept, .respond]) = .next t ∧
        State.final t = true ∧ State.out t = [5] :=
  ⟨by decide, _, rfl, by decide, by decide⟩

/-- The turns of a unit that alternates ACCEPT and RESPOND. -/
def alternating (n : Nat) : Event :=
  if n % 2 = 0 then .accept else .respond

/-- A unit that is ready to accept and to respond in turn, with a host that holds its two levels. -/
def inTurn (offering taking : Bool) (n : Nat) : Turn :=
  ⟨offering, taking, alternating n⟩

theorem inTurn_onlyTransfers (o t : Bool) : OnlyTransfers (inTurn o t) := by
  intro n
  unfold eventsOf Turn.happens inTurn alternating
  cases o <;> cases t <;> by_cases h : n % 2 = 0 <;> simp [h]

theorem inTurn_respondFair (o : Bool) (s : State) : RespondFair (inTurn o true) s := fun n _ =>
  ⟨2 * n + 1, by omega, Turn.happens_respond.2 ⟨by simp [inTurn, alternating, show (2 * n + 1) % 2 = 1 by omega], rfl⟩⟩

theorem inTurn_acceptFair (t : Bool) (s : State) : AcceptFair (inTurn true t) s := fun n _ =>
  ⟨2 * n, by omega, Turn.happens_accept.2 ⟨by simp [inTurn, alternating], rfl⟩⟩

/-- TakingHostGetsPendingResponses: a host that takes and never offers, with two requests pending. -/
theorem witness_taking_host :
    RespondFair (inTurn false true) (flying twoSlots [clmul33, dilate1] .idle) ∧ HostKeepsTaking (inTurn false true) ∧
      OnlyTransfers (inTurn false true) ∧ (flying twoSlots [clmul33, dilate1] .idle).clean = true ∧
      (flying twoSlots [clmul33, dilate1] .idle).rst = false ∧
      (flying twoSlots [clmul33, dilate1] .idle).platform.hasUnit = true ∧
      ∀ r ∈ (flying twoSlots [clmul33, dilate1] .idle).pending, r.op.toNat ≤ 4 :=
  ⟨inTurn_respondFair false _, fun _ => rfl, inTurn_onlyTransfers false true, by decide, by decide, by decide, by decide⟩

/-- OfferingHostGetsRequestAccepted: a host that offers and never takes, with one slot left. -/
theorem witness_offering_host :
    AcceptFair (inTurn true false) (flying twoSlots [dilate1] .idle) ∧ HostKeepsOffering (inTurn true false) ∧
      OnlyTransfers (inTurn true false) ∧ (flying twoSlots [dilate1] .idle).clean = true ∧
      (flying twoSlots [dilate1] .idle).rst = false ∧ (flying twoSlots [dilate1] .idle).platform.hasUnit = true ∧
      (∀ r ∈ (flying twoSlots [dilate1] .idle).pending, r.op.toNat ≤ 4) ∧
      (flying twoSlots [dilate1] .idle).pending.length + 1 = (flying twoSlots [dilate1] .idle).platform.queueDepth ∧
      (flying twoSlots [dilate1] .idle).program[1]? = some clmul33 :=
  ⟨inTurn_acceptFair false _, fun _ => rfl, inTurn_onlyTransfers true false, by decide, by decide, by decide, by decide,
    by decide, by decide⟩

/-- The unit's guarantee is no demand on a unit whose host does not play its part: with a host that never takes, a unit that never
responds is fair to RESPOND. -/
theorem test_fairness_needs_taking_host (s : State) : RespondFair (fun _ => ⟨true, false, .accept⟩) s := by
  intro n h
  obtain ⟨_, _, _, h⟩ := h n (Nat.le_refl n)
  cases h

/-- FairScheduleEndsRun: a fair unit, a host that takes and offers, and a run about to start. -/
theorem witness_fair_schedule :
    WeaklyFair (inTurn true true) (State.start twoSlots [clmul33] []) ∧ HostKeepsTaking (inTurn true true) ∧
      HostKeepsOffering (inTurn true true) ∧ OnlyTransfers (inTurn true true) ∧
      (State.start twoSlots [clmul33] []).Inv ∧ (State.start twoSlots [clmul33] []).clean = true ∧
      (State.start twoSlots [clmul33] []).rst = false ∧ (State.start twoSlots [clmul33] []).platform.hasUnit = true ∧
      (∀ r ∈ (State.start twoSlots [clmul33] []).pending, r.op.toNat ≤ 4) ∧
      ∀ r ∈ (State.start twoSlots [clmul33] []).program.drop 0, r.op.toNat ≤ 4 := by
  refine ⟨⟨inTurn_respondFair true _, inTurn_acceptFair true _⟩, fun _ => rfl, fun _ => rfl, inTurn_onlyTransfers true true, ?_,
    by decide, by decide, by decide, by decide, by decide⟩
  simp [State.Inv, State.QueueBounded, State.PendingIssued, State.EmptyInReset, State.NothingWithoutUnit,
    State.FaultHasCause, State.RefusalHasCause, State.start, twoSlots, State.reset]

end Sys2Proof.Tests
end

/-! SUPPORT. What one event does to a clean run, as an equation per case; the effect of an event as a relation; what
every effect keeps; the statements of 10_state.md. -/

namespace Sys2Proof.Machine

/-! ## The values of requests -/

theorem Request.value?_eq_some {r : Request} {i : Instr} (h : r.decoded = .op i) : r.value? = some (responseOf i) := by
  simp [Request.value?, h]

/-- A request with a defined `op` has a value (30_encoding.md R68, 10_state.md R31). -/
theorem Request.exists_value {r : Request} (h : r.op.toNat ≤ 4) : ∃ v, r.value? = some v := by
  obtain ⟨_, i, hi, _⟩ | ⟨h5, _⟩ := decodeFields_cases r.op r.b r.a
  · exact ⟨_, Request.value?_eq_some hi⟩
  · omega

/-- The value of a request is a function of `op` and `a`, and of `b` but for the unary operations (10_state.md R32,
30_encoding.md R64). -/
theorem Request.value?_congr {r r' : Request} (hop : r.op = r'.op) (ha : r.a = r'.a)
    (hb : r.b = r'.b ∨ r.op = 1 ∨ r.op = 3) : r.value? = r'.value? := by
  obtain ⟨op, a, b⟩ := r
  obtain ⟨op', a', b'⟩ := r'
  obtain rfl : op = op' := hop
  obtain rfl : a = a' := ha
  obtain hb | hop | hop := hb
  · obtain rfl : b = b' := hb
    rfl
  · obtain rfl : op = 1 := hop
    rfl
  · obtain rfl : op = 3 := hop
    rfl

/-! ## Events in a clean run -/

theorem State.recordFault_of_clean {s : State} (h : s.clean = true) (f : Fault) (n : Nat) :
    s.recordFault f n = { s with fault := some (f, n) } :=
  if_neg (by simpa [State.clean] using h)

theorem State.recordRefusal_of_clean {s : State} (h : s.clean = true) (r : RecordedRefusal) (n : Nat) :
    s.recordRefusal r n = { s with refused := some (r, n) } :=
  if_neg (by simpa [State.clean] using h)

theorem perform_idle {s : State} (h : s.clean = true) : perform .idle s = .next s :=
  unlessStopped_of_clean h _

theorem perform_accept {s : State} (h : s.clean = true) : perform .accept s = .next (acceptEvent s) :=
  unlessStopped_of_clean h _

theorem perform_respond {s : State} (h : s.clean = true) : perform .respond s = respondEvent s :=
  unlessStopped_of_clean h _

theorem sampleEvent_of_clean {s : State} (h : s.clean = true) :
    sampleEvent s = { s with fault := some (.noResultValue, s.position) } :=
  State.recordFault_of_clean h _ _

theorem perform_sampleResult {s : State} (h : s.clean = true) :
    perform .sampleResult s = .next { s with fault := some (.noResultValue, s.position) } :=
  (unlessStopped_of_clean h _).trans (congrArg _ (sampleEvent_of_clean h))

/-! ### ACCEPT (10_state.md R29) -/

theorem acceptEvent_of_not_offered {s : State} (h : s.offered = none) : acceptEvent s = s := by
  simp [acceptEvent, h]

theorem acceptEvent_in_reset {s : State} (h : s.rst = true) : acceptEvent s = s := by
  unfold acceptEvent
  split
  · rfl
  · exact if_pos h

theorem acceptEvent_of_absent {s : State} {r : Request} (hc : s.clean = true) (ho : s.offered = some r)
    (hrst : s.rst = false) (hu : s.platform.hasUnit = false) :
    acceptEvent s = { s with refused := some (.noUnit, s.position) } := by
  simp [acceptEvent, ho, hrst, hu, State.recordRefusal_of_clean hc]

theorem acceptEvent_of_ready {s : State} {r : Request} (ho : s.offered = some r) (hu : s.platform.hasUnit = true)
    (hq : s.reqReady = true) : acceptEvent s = s.enqueue r := by
  obtain ⟨hrst, _⟩ := (State.reqReady_iff s).1 hq
  simp [acceptEvent, ho, hrst, hu, hq]

theorem acceptEvent_of_not_ready {s : State} (hu : s.platform.hasUnit = true) (hq : s.reqReady = false) :
    acceptEvent s = s := by
  unfold acceptEvent
  split <;> simp [hu, hq]

/-- With the unit present the position moves exactly when `req_valid` and `req_ready` are both 1 (10_state.md R25). -/
theorem acceptEvent_position {s : State} (hu : s.platform.hasUnit = true) :
    (acceptEvent s).position = if s.reqValid && s.reqReady then s.position + 1 else s.position := by
  cases ho : s.offered with
  | none => simp [acceptEvent_of_not_offered ho, State.reqValid, ho]
  | some r =>
    cases hq : s.reqReady with
    | true => simp [acceptEvent_of_ready ho hu hq, State.reqValid, ho]
    | false => simp [acceptEvent_of_not_ready hu hq]

/-! ### RESPOND (10_state.md R30) -/

theorem respondEvent_of_empty {s : State} (h : s.pending = []) : respondEvent s = .next s := by
  simp [respondEvent, h]

theorem respondEvent_in_reset {s : State} (h : s.rst = true) : respondEvent s = .next s := by
  unfold respondEvent
  split
  · rfl
  · exact if_pos h

theorem respondEvent_of_op {s : State} {r : Request} {rest : List Request} {i : Instr} (hrst : s.rst = false)
    (hp : s.pending = r :: rest) (hi : r.decoded = .op i) : respondEvent s = exec i { s with pending := rest } := by
  simp [respondEvent, hp, hrst, hi, State.retire]

theorem respondEvent_of_value {s : State} {r : Request} {rest : List Request} {v : Bits128} (hrst : s.rst = false)
    (hp : s.pending = r :: rest) (hv : r.value? = some v) :
    respondEvent s = .next { s with pending := rest, out := s.out ++ [v] } := by
  unfold Request.value? at hv
  split at hv
  · next i hi =>
    obtain rfl : responseOf i = v := by simpa using hv
    rw [respondEvent_of_op hrst hp hi, exec_eq]
    rfl
  · cases hv

theorem respondEvent_of_reserved {s : State} {r : Request} {rest : List Request} {op : Bits3} (hc : s.clean = true)
    (hrst : s.rst = false) (hp : s.pending = r :: rest) (hop : r.decoded = .reserved op) :
    respondEvent s = .next
      { s with
        pending := rest
        out := s.out ++ [Config.reservedResult s.freeCount]
        fault := some (.reservedOp op, s.oldestIndex)
        freeCount := s.freeCount + 1 } := by
  have hclean : s.retire.deliverReserved.clean = true := hc
  have hevent : respondEvent s = .next (s.retire.deliverReserved.recordFault (.reservedOp op) s.oldestIndex) := by
    simp [respondEvent, hp, hrst, hop]
  rw [hevent, State.recordFault_of_clean hclean]
  simp [State.deliverReserved, State.deliver, State.retire, hp]

/-! ## Steps -/

theorem step_of_script {s : State} {e : Event} {es : List Event} (h : s.script = e :: es) :
    step s = perform e { s with script := es } := by
  simp [step_eq, nextEvent, h]

/-! ## The effect of an event -/

/-- What an event does in a state that goes on to a next one, a case per kind of effect (10_state.md R27 to R30 and R35,
60_exceptions.md R131 and R132, 70_reset_and_hazards.md R160). -/
inductive Effect (s : State) : Event → State → Prop where
  /-- A delay, or a transfer that is not enabled. -/
  | nothing {e : Event} (he : e.isReset = false) : Effect s e s
  /-- The pending requests are dropped. -/
  | drop {e : Event} (he : e.isReset = true) (rst : Bool) : Effect s e { s with pending := [], rst := rst }
  | release : Effect s .releaseRst { s with rst := false }
  | accept {r : Request} (ho : s.program[s.position]? = some r) (hu : s.platform.hasUnit = true) (hrst : s.rst = false)
      (hroom : s.pending.length < s.platform.queueDepth) :
      Effect s .accept { s with pending := s.pending ++ [r], position := s.position + 1 }
  | refuse {r : Request} (hc : s.clean = true) (ho : s.program[s.position]? = some r)
      (hu : s.platform.hasUnit = false) : Effect s .accept { s with refused := some (.noUnit, s.position) }
  | respond {r : Request} {rest : List Request} {v : Bits128} (hp : s.pending = r :: rest) (hrst : s.rst = false)
      (hv : r.value? = some v) : Effect s .respond { s with pending := rest, out := s.out ++ [v] }
  | reserved {r : Request} {rest : List Request} (hc : s.clean = true) (hp : s.pending = r :: rest)
      (hrst : s.rst = false) (h5 : 5 ≤ r.op.toNat) (v : Bits128) (k : Nat) :
      Effect s .respond
        { s with
          pending := rest
          out := s.out ++ [v]
          fault := some (.reservedOp r.op, s.oldestIndex)
          freeCount := k }
  | sample (hc : s.clean = true) :
      Effect s .sampleResult { s with fault := some (.noResultValue, s.position) }

theorem acceptEvent_effect {s : State} (hc : s.clean = true) : Effect s .accept (acceptEvent s) := by
  obtain h | ⟨r, ho, _, hu, h⟩ | ⟨r, ho, hu, hrst, hroom, h⟩ := acceptEvent_cases s
  · rw [h]
    exact .nothing rfl
  · rw [h, State.recordRefusal_of_clean hc]
    exact .refuse hc ho hu
  · rw [h]
    exact .accept ho hu hrst hroom

theorem respondEvent_effect {s t : State} (hc : s.clean = true) (h : respondEvent s = .next t) :
    Effect s .respond t := by
  obtain ⟨hs, _⟩ | ⟨r, rest, i, hp, hrst, hi, _⟩ | ⟨r, rest, hp, hrst, hr, h5, _⟩ := respondEvent_cases s
  · obtain rfl : s = t := by simpa [hs] using h
    exact .nothing rfl
  · have hv := Request.value?_eq_some hi
    rw [respondEvent_of_value hrst hp hv] at h
    cases h
    exact .respond hp hrst hv
  · rw [respondEvent_of_reserved hc hrst hp hr] at h
    cases h
    exact .reserved hc hp hrst h5 _ _

/-- Every event that leads to a next state has one of the effects. -/
theorem perform_effect {e : Event} {s t : State} (h : perform e s = .next t) : Effect s e t := by
  obtain ⟨rfl, rfl⟩ | ⟨rfl, rfl⟩ | ⟨rfl, rfl⟩ | ⟨hc, ⟨rfl, rfl⟩ | ⟨rfl, rfl⟩ | ⟨rfl, ht⟩ | ⟨rfl, rfl⟩⟩ :=
    perform_cases h
  · exact .drop rfl false
  · exact .drop rfl true
  · exact .release
  · exact .nothing rfl
  · exact acceptEvent_effect hc
  · exact respondEvent_effect hc ht
  · rw [sampleEvent_of_clean hc]
    exact .sample hc

/-- The effect of a step is that of the next event on the state without it. -/
theorem step_effect {s t : State} (h : step s = .next t) :
    Effect { s with script := s.script.tail } (nextEvent s).1 t := by
  rw [← nextEvent_state]
  exact perform_effect h

/-- What every effect keeps, every step keeps, if it does not read the script. -/
theorem step_keeps {P : State → Prop} (hscript : ∀ s es, P s → P { s with script := es })
    (heffect : ∀ {s t e}, Effect s e t → P s → P t) {s t : State} (hs : P s) (h : step s = .next t) : P t :=
  heffect (step_effect h) (hscript s _ hs)

/-! ## The requests issued -/

namespace State

/-- An ACCEPT adds the request at the position to the requests issued. -/
theorem take_position_succ {s : State} {r : Request} (ho : s.program[s.position]? = some r) :
    s.program.take (s.position + 1) = s.program.take s.position ++ [r] := by
  simp [List.take_add_one, ho]

/-- Where nothing has been issued nothing is pending. -/
theorem PendingIssued.pending_eq_nil {s : State} (hi : s.PendingIssued) (hpos : s.position = 0) : s.pending = [] := by
  obtain ⟨_, hsuf⟩ := hi
  simpa [hpos] using hsuf

/-- The oldest pending request stands in the program at the index recorded for it (60_exceptions.md R139). -/
theorem PendingIssued.program_oldestIndex {s : State} {r : Request} {rest : List Request} (hi : s.PendingIssued)
    (hp : s.pending = r :: rest) : s.program[s.oldestIndex]? = some r := by
  obtain ⟨hpos, pre, hpre⟩ := hi
  rw [oldestIndex_eq hpos hpre.symm, ← List.take_append_drop s.position s.program, ← hpre, hp]
  simp

end State

/-! ## What every effect keeps -/

namespace Effect

variable {s t : State} {e : Event}

theorem platform_eq (h : Effect s e t) : t.platform = s.platform := by
  cases h <;> rfl

theorem program_eq (h : Effect s e t) : t.program = s.program := by
  cases h <;> rfl

/-- The position stays and requests leave `pending` from the front only, or the request at the position is taken. -/
theorem position_cases (h : Effect s e t) :
    (t.position = s.position ∧ (t.pending = s.pending ∨ t.pending = s.pending.tail ∨ t.pending = [])) ∨
      (t.position = s.position + 1 ∧ s.pending.length < s.platform.queueDepth ∧
        ∃ r, s.program[s.position]? = some r ∧ t.pending = s.pending ++ [r]) := by
  cases h with
  | nothing | release | refuse | sample => exact .inl ⟨rfl, .inl rfl⟩
  | drop => exact .inl ⟨rfl, .inr (.inr rfl)⟩
  | accept ho _ _ hroom => exact .inr ⟨rfl, hroom, _, ho, rfl⟩
  | respond hp | reserved _ hp => exact .inl ⟨rfl, .inr (.inl (by simp [hp]))⟩

/-- The same, with the requests that stay in `pending` as a suffix of those before. -/
theorem suffix_cases (h : Effect s e t) :
    (t.position = s.position ∧ t.pending <:+ s.pending) ∨
      (t.position = s.position + 1 ∧ s.pending.length < s.platform.queueDepth ∧
        ∃ r, s.program[s.position]? = some r ∧ t.pending = s.pending ++ [r]) := by
  refine h.position_cases.imp_left fun ⟨hpos, hp⟩ => ⟨hpos, ?_⟩
  obtain hp | hp | hp := hp <;> simp [hp, List.tail_suffix]

theorem queueBounded (h : Effect s e t) (hs : s.QueueBounded) : t.QueueBounded := by
  obtain ⟨hdepth, hlen⟩ := hs
  unfold State.QueueBounded
  rw [h.platform_eq]
  refine ⟨hdepth, ?_⟩
  obtain ⟨_, hsuf⟩ | ⟨_, hroom, r, _, hp⟩ := h.suffix_cases
  · exact hsuf.length_le.trans hlen
  · simpa [hp] using hroom

theorem pendingIssued (h : Effect s e t) (hs : s.PendingIssued) : t.PendingIssued := by
  obtain ⟨hpos, pre, hpre⟩ := hs
  unfold State.PendingIssued
  rw [h.program_eq]
  obtain ⟨hpt, hsuf⟩ | ⟨hpt, _, r, ho, hp⟩ := h.suffix_cases
  · rw [hpt]
    exact ⟨hpos, hsuf.trans ⟨pre, hpre⟩⟩
  · rw [hpt, hp, State.take_position_succ ho]
    obtain ⟨hlt, _⟩ := List.getElem?_eq_some_iff.1 ho
    exact ⟨hlt, pre, by rw [← hpre, List.append_assoc]⟩

theorem emptyInReset (h : Effect s e t) (hs : s.EmptyInReset) : t.EmptyInReset := by
  cases h with
  | nothing | refuse | sample => exact hs
  | drop => exact fun _ => rfl
  | release => exact fun hrst => absurd hrst (by simp)
  | accept _ _ hrst | respond _ hrst | reserved _ _ hrst => exact fun hrst' => absurd hrst' (by simp [hrst])

theorem nothingWithoutUnit (h : Effect s e t) (hi : s.PendingIssued) (hs : s.NothingWithoutUnit) :
    t.NothingWithoutUnit := by
  intro hu
  rw [h.platform_eq] at hu
  obtain ⟨hpos, hout⟩ := hs hu
  have hnone := hi.pending_eq_nil hpos
  cases h with
  | nothing | drop | release | refuse | sample => exact ⟨hpos, hout⟩
  | accept _ hu' => simp [hu] at hu'
  | respond hp | reserved _ hp => simp [hnone] at hp

theorem faultHasCause (h : Effect s e t) (hi : s.PendingIssued) (hs : s.FaultHasCause) : t.FaultHasCause := by
  cases h with
  | nothing | drop | release | refuse | respond => exact hs
  | accept => exact hs.imp_right fun hread n hn => (hread n hn).trans (Nat.le_succ _)
  | reserved _ hp _ h5 =>
    refine ⟨fun _ _ hf => ?_, fun _ hf => by cases hf⟩
    cases hf
    exact ⟨h5, by simp [hi.program_oldestIndex hp]⟩
  | sample => exact ⟨fun _ _ hf => (by cases hf), fun n hf => by cases hf; exact le_rfl⟩

theorem refusalHasCause (h : Effect s e t) (hn : s.NothingWithoutUnit) (hs : s.RefusalHasCause) :
    t.RefusalHasCause := by
  cases h with
  | nothing | drop | release | accept | respond | reserved | sample => exact hs
  | refuse _ ho hu =>
    intro r n hr
    cases hr
    refine ⟨rfl, (hn hu).1, hu, fun hnil => ?_⟩
    simp [show s.program = [] from hnil] at ho

theorem not_both_recorded (h : Effect s e t) (hs : ¬ (s.fault.isSome = true ∧ s.refused.isSome = true)) :
    ¬ (t.fault.isSome = true ∧ t.refused.isSome = true) := by
  cases h with
  | nothing | drop | release | accept | respond => exact hs
  | refuse hc | reserved hc | sample hc =>
    obtain ⟨hf, hr⟩ := (State.clean_iff s).1 hc
    simp [hf, hr]

theorem inv (h : Effect s e t) (hs : s.Inv) : t.Inv := by
  obtain ⟨hqueue, hissued, hreset, habsent, hfault, hrefusal, hboth⟩ := hs
  exact ⟨h.queueBounded hqueue, h.pendingIssued hissued, h.emptyInReset hreset, h.nothingWithoutUnit hissued habsent,
    h.faultHasCause hissued hfault, h.refusalHasCause habsent hrefusal, h.not_both_recorded hboth⟩

end Effect

/-! ## Responses delivered and owed -/

/-- The values delivered, and after them the values the pending requests are owed. -/
def State.accounted (s : State) : List (Option Bits128) :=
  s.out.map some ++ s.pending.map Request.value?

/-- The values of the requests issued so far, in issue order. -/
def State.issuedValues (s : State) : List (Option Bits128) :=
  (s.program.take s.position).map Request.value?

theorem State.deliveredInOrder_iff (s : State) :
    s.DeliveredInOrder ↔ (s.fault = none → s.accounted.Sublist s.issuedValues) := Iff.rfl

theorem State.deliveredAll_iff (s : State) : s.DeliveredAll ↔ (s.fault = none → s.accounted = s.issuedValues) := Iff.rfl

/-- While no fault is recorded, an effect keeps the values owed and the values issued, or drops those of the pending
requests in a reset, or adds the value of the accepted request behind both. -/
theorem Effect.accounted_cases {s t : State} {e : Event} (h : Effect s e t) (hf : t.fault = none) :
    s.fault = none ∧
      ((t.accounted = s.accounted ∧ t.issuedValues = s.issuedValues) ∨
        (e.isReset = true ∧ t.accounted.Sublist s.accounted ∧ t.issuedValues = s.issuedValues) ∨
        ∃ x, t.accounted = s.accounted ++ [x] ∧ t.issuedValues = s.issuedValues ++ [x]) := by
  cases h with
  | nothing | release | refuse => exact ⟨hf, .inl ⟨rfl, rfl⟩⟩
  | drop he => exact ⟨hf, .inr (.inl ⟨he, by simp [State.accounted], rfl⟩)⟩
  | @accept r ho =>
    exact ⟨hf, .inr (.inr ⟨r.value?, by simp [State.accounted],
      by simp [State.issuedValues, State.take_position_succ ho]⟩)⟩
  | respond hp _ hv => exact ⟨hf, .inl ⟨by simp [State.accounted, hp, hv], rfl⟩⟩
  | reserved | sample => cases hf

theorem Effect.deliveredInOrder {s t : State} {e : Event} (h : Effect s e t) (hs : s.DeliveredInOrder) :
    t.DeliveredInOrder := by
  rw [State.deliveredInOrder_iff] at hs ⊢
  intro hf
  obtain ⟨hfs, ⟨ho, hi⟩ | ⟨_, ho, hi⟩ | ⟨x, ho, hi⟩⟩ := h.accounted_cases hf <;> rw [hi]
  · exact ho ▸ hs hfs
  · exact ho.trans (hs hfs)
  · exact ho ▸ (hs hfs).append_right [x]

theorem Effect.deliveredAll {s t : State} {e : Event} (h : Effect s e t) (he : e.isReset = false)
    (hs : s.DeliveredAll) : t.DeliveredAll := by
  rw [State.deliveredAll_iff] at hs ⊢
  intro hf
  obtain ⟨hfs, ⟨ho, hi⟩ | ⟨he', _⟩ | ⟨x, ho, hi⟩⟩ := h.accounted_cases hf
  · rw [ho, hi, hs hfs]
  · simp [he] at he'
  · rw [ho, hi, hs hfs]

/-! ## The statements of 10_state.md -/

/-- Settles O36: every effect keeps each part of the invariant, which does not read the script. -/
theorem stepKeepsInvariant : Obligations.StepKeepsInvariant :=
  fun _ _ => step_keeps (fun _ _ hs => hs) Effect.inv

/-- Settles O37: what is owed changes as the issued values do, or loses a part in a reset. -/
theorem stepKeepsDeliveryOrder : Obligations.StepKeepsDeliveryOrder :=
  fun _ _ => step_keeps (fun _ _ hs => hs) Effect.deliveredInOrder

/-- Settles O20, by the cases of ACCEPT. -/
theorem acceptTransfersOfferedRequest : Obligations.AcceptTransfersOfferedRequest := by
  intro s hc
  rw [perform_accept hc]
  refine ⟨fun r ho hrst => ⟨fun hu => ?_, fun hu hroom => ?_, fun hu hfull => ?_⟩, fun ho => ?_, perform_idle hc⟩
  · rw [acceptEvent_of_absent hc ho hrst hu]
  · rw [acceptEvent_of_ready ho hu ((State.reqReady_iff s).2 ⟨hrst, hroom⟩)]
    rfl
  · rw [acceptEvent_of_not_ready hu (by simpa [State.reqReady] using fun _ => hfull)]
  · rw [acceptEvent_of_not_offered ho]

/-- Settles O21, by the cases of RESPOND. -/
theorem respondDeliversOldest : Obligations.RespondDeliversOldest := by
  intro s hc hrst
  rw [perform_respond hc]
  refine ⟨fun r rest i hp hi => ?_, fun r rest op hp hop => ?_, respondEvent_of_empty⟩
  · exact ⟨responseOf i, exec_eq i, respondEvent_of_value hrst hp (Request.value?_eq_some hi)⟩
  · exact ⟨_, s.oldestIndex, respondEvent_of_reserved hc hrst hp hop, fun _ hpos hpre => oldestIndex_eq hpos hpre⟩

/-- Settles O28: the views of the ports after RESET, and the cases in which reset holds a transfer off. -/
theorem resetValuesOfPorts : Obligations.ResetValuesOfPorts := by
  refine ⟨fun s hdepth => ?_, fun s hrst => ⟨?_, ?_, fun hc => ⟨?_, ?_⟩⟩⟩
  · refine ⟨_, rfl, rfl, ?_, rfl, perform_sampleResult, rfl, rfl, rfl, rfl⟩
    exact (State.reqReady_iff _).2 ⟨rfl, hdepth⟩
  · simp [State.reqReady, hrst]
  · simp [State.respValid, hrst]
  · rw [perform_accept hc, acceptEvent_in_reset hrst]
  · rw [perform_respond hc, respondEvent_in_reset hrst]

/-- Settles O29: the position by the cases of ACCEPT, the response by those of RESPOND. -/
theorem transfersNeedValidAndReady : Obligations.TransfersNeedValidAndReady := by
  intro s hc hu
  rw [perform_accept hc, perform_respond hc]
  refine ⟨⟨_, rfl, acceptEvent_position hu⟩, ?_⟩
  obtain ⟨h, hno⟩ | ⟨r, rest, i, hp, hrst, _, h⟩ | ⟨r, rest, hp, hrst, _, _, h⟩ := respondEvent_cases s
  · refine ⟨_, h, ?_⟩
    obtain hp | hrst := hno
    · simp [State.respValid, hp]
    · simp [State.respValid, hrst]
  · exact ⟨_, h, by simp [State.respValid, hp, hrst]⟩
  · exact ⟨_, h, by simp [State.respValid, hp, hrst]⟩

/-- Settles O31: both requests have the same value. -/
theorem equalRequestsGetEqualResponses : Obligations.EqualRequestsGetEqualResponses := by
  intro s s' r r' rest rest' hc hc' hrst hrst' hp hp' hop ha hb h4
  obtain ⟨v, hv⟩ := Request.exists_value h4
  have hv' : r'.value? = some v := by rw [← Request.value?_congr hop ha hb, hv]
  refine ⟨v, ?_, ?_⟩
  · rw [perform_respond hc, respondEvent_of_value hrst hp hv]
  · rw [perform_respond hc', respondEvent_of_value hrst' hp' hv']

/-- Settles O33, by the effects of a step on the position. -/
theorem positionNeverJumps : Obligations.PositionNeverJumps := by
  refine ⟨rfl, fun s t h => ⟨(step_effect h).program_eq, ?_⟩⟩
  exact (step_effect h).position_cases.imp_right fun ⟨hpos, _, htaken⟩ => ⟨hpos, htaken⟩

/-- Settles O34: no effect writes the platform. -/
theorem platformIsFixed : Obligations.PlatformIsFixed :=
  fun _ _ h => (step_effect h).platform_eq

/-- Settles O38: only a reset drops what is owed. -/
theorem stepWithoutResetLosesNothing : Obligations.StepWithoutResetLosesNothing :=
  fun _ _ hs he h => (step_effect h).deliveredAll he hs

/-- Settles O18: the step is a RESPOND of a request that decodes to the instruction. -/
theorem stepRunsDecodedInstruction : Obligations.StepRunsDecodedInstruction := by
  intro s es r rest i hscript hp hrst hc hi _
  rw [decode_word] at hi
  rw [step_of_script hscript]
  exact (perform_respond (s := { s with script := es }) hc).trans (respondEvent_of_op hrst hp hi)

/-- Settles O19, by the two cases of the script. -/
theorem stepPerformsNextEvent : Obligations.StepPerformsNextEvent := by
  refine fun s e es => ⟨step_of_script, fun hscript hc => ?_⟩
  simp [step_eq, nextEvent, hscript, perform_idle hc]

/-- A run about to start meets the invariant. -/
theorem State.start_inv {p : Config.Platform} (hp : p.wf = true) (prog : List Request) (es : List Event) :
    (State.start p prog es).Inv := by
  have hdepth : 1 ≤ p.queueDepth := by simpa [Config.Platform.wf] using hp
  refine ⟨⟨hdepth, Nat.zero_le _⟩, ⟨Nat.zero_le _, List.nil_suffix⟩, fun _ => rfl, fun _ => ⟨rfl, rfl⟩,
    ⟨fun _ _ hf => ?_, fun _ hf => ?_⟩, fun _ _ hr => ?_, fun hboth => ?_⟩
  · cases hf
  · cases hf
  · cases hr
  · cases hboth.1

/-- Settles O35: the reset state is a run about to start on one platform, of no program. -/
theorem runStartsInInvariant : Obligations.RunStartsInInvariant := by
  refine ⟨State.start_inv (p := State.reset.platform) rfl [] [], fun p prog es hp => ?_⟩
  refine ⟨State.start_inv hp prog es, fun _ => ?_, fun _ => ?_⟩ <;> simp [State.start, State.reset]

end Sys2Proof.Machine

/-! SUPPORT. The frame of an instruction; runs that only respond; what every step of a run without a reset keeps; the
statements of 20_memory.md. -/

namespace Sys2Proof.Machine

/-- A schedule of RESPONDs delivers the value of the oldest pending request next (10_state.md R30). -/
theorem runOn_respond_succ {s t : State} {n : Nat} {r : Request} {rest : List Request} {v : Bits128}
    (hrun : runOn (fun _ => .respond) n s = .next t) (hc : t.clean = true) (hrst : t.rst = false)
    (hp : t.pending = r :: rest) (hv : r.value? = some v) :
    runOn (fun _ => .respond) (n + 1) s = .next { t with pending := rest, out := t.out ++ [v] } := by
  rw [runOn_succ hrun, perform_respond hc, respondEvent_of_value hrst hp hv]

/-- In a clean run out of reset, `n` RESPONDs deliver the values of the `n` oldest pending requests, all of them
defined, in acceptance order (10_state.md R30, 20_memory.md R49). -/
theorem runOn_respond_eq {s : State} (hc : s.clean = true) (hrst : s.rst = false)
    (hdef : ∀ r ∈ s.pending, r.op.toNat ≤ 4) {n : Nat} (hn : n ≤ s.pending.length) :
    ∃ vs, runOn (fun _ => .respond) n s = .next { s with pending := s.pending.drop n, out := s.out ++ vs } ∧
      vs.map some = (s.pending.take n).map Request.value? := by
  induction n with
  | zero => exact ⟨[], by simp [runOn], rfl⟩
  | succ n ih =>
    obtain ⟨vs, hrun, hvs⟩ := ih (Nat.le_of_succ_le hn)
    have holdest : s.pending.drop n = s.pending[n] :: s.pending.drop (n + 1) := List.drop_eq_getElem_cons hn
    obtain ⟨v, hv⟩ := Request.exists_value (hdef _ (List.getElem_mem hn))
    refine ⟨vs ++ [v], ?_, ?_⟩
    · rw [runOn_respond_succ hrun hc hrst holdest hv, List.append_assoc]
    · rw [List.take_succ_eq_append_getElem hn, List.map_append, List.map_append, hvs, List.map_singleton,
        List.map_singleton, hv]

/-! ## Runs without a reset -/

/-- No effect writes the script. -/
theorem Effect.script_eq {s t : State} {e : Event} (h : Effect s e t) : t.script = s.script := by
  cases h <;> rfl

/-- A step takes the next event from the script. -/
theorem step_script {s t : State} (h : step s = .next t) : t.script = s.script.tail :=
  (step_effect h).script_eq

/-- What every step keeps, every run keeps. -/
theorem run_keeps {P : State → Prop} (hstep : ∀ s t, P s → step s = .next t → P t) {n : Nat} {s t : State}
    (hs : P s) (h : Host.Core.run core n s = .next t) : P t := by
  induction n generalizing s with
  | zero => exact run_zero_eq_next h ▸ hs
  | succ n ih =>
    obtain ⟨u, hu, hrest⟩ := run_succ_eq_next h
    exact ih (hstep s u hs hu) hrest

namespace State

/-- No event to come is a reset. -/
def NoResetAhead (s : State) : Prop :=
  ∀ e ∈ s.script, e.isReset = false

/-- The next event is none either: with an empty script it is a delay (log entry 3). -/
theorem NoResetAhead.nextEvent {s : State} (h : s.NoResetAhead) : (nextEvent s).1.isReset = false := by
  unfold Machine.nextEvent
  split
  · rfl
  · next e es hscript => exact h e (by simp [hscript])

theorem NoResetAhead.step {s t : State} (h : s.NoResetAhead) (hst : step s = .next t) : t.NoResetAhead := by
  intro e he
  rw [step_script hst] at he
  exact h e (List.mem_of_mem_tail he)

/-- A run of `prog` in which no reset is still to come and every request issued has its response or is pending. -/
def UndisturbedRun (prog : List Request) (s : State) : Prop :=
  s.program = prog ∧ s.NoResetAhead ∧ s.DeliveredAll

theorem UndisturbedRun.step {prog : List Request} {s t : State} (h : s.UndisturbedRun prog)
    (hst : step s = .next t) : t.UndisturbedRun prog := by
  obtain ⟨hprog, hahead, hall⟩ := h
  exact ⟨(step_effect hst).program_eq.trans hprog, hahead.step hst,
    stepWithoutResetLosesNothing s t hall hahead.nextEvent hst⟩

theorem start_undisturbedRun (p : Config.Platform) (prog : List Request) {es : List Event}
    (hes : ∀ e ∈ es, e.isReset = false) : (start p prog es).UndisturbedRun prog :=
  ⟨rfl, hes, fun _ => rfl⟩

/-- At its end such a run owes nothing and has issued the whole program (70_reset_and_hazards.md R170). -/
theorem UndisturbedRun.out_of_final {prog : List Request} {s : State} (h : s.UndisturbedRun prog)
    (hfinal : s.final = true) : s.out.map some = prog.map Request.value? := by
  obtain ⟨rfl, _, hall⟩ := h
  obtain ⟨⟨hpos, hnone⟩, hfault, _⟩ := (final_iff s).1 hfinal
  simpa [hpos, hnone] using hall hfault

end State

/-! ## The statements of 20_memory.md -/

/-- Settles O32: after as many RESPONDs as there are pending requests nothing is left of them. -/
theorem respondsDrainInOrder : Obligations.RespondsDrainInOrder := by
  intro s hc hrst hdef
  simpa using runOn_respond_eq hc hrst hdef le_rfl

/-- Settles O39: every step keeps the run undisturbed, and at the end of such a run the responses are the program's
values. -/
theorem everyInterleavingDeliversSame : Obligations.EveryInterleavingDeliversSame := by
  intro p prog es n t hes hrun hfinal
  have hend : t.UndisturbedRun prog :=
    run_keeps (fun _ _ => State.UndisturbedRun.step) (State.start_undisturbedRun p prog hes) hrun
  exact hend.out_of_final hfinal

/-- Settles O12: the next state is the one with the instruction's response delivered. -/
theorem instructionFrame : Obligations.InstructionFrame := by
  intro i s t h
  rw [exec_eq] at h
  obtain rfl : s.deliver (responseOf i) = t := by simpa using h
  exact ⟨⟨responseOf i, rfl⟩, rfl, rfl, rfl, rfl, rfl, rfl, rfl, rfl, rfl⟩

end Sys2Proof.Machine

/-! SUPPORT. The carry-less product as a product of polynomials over the field of two elements, and through it the bits of a
dilated value; the encoder against the decoder; what the assembler answers; the statements of 30_encoding.md. -/

namespace Sys2Proof.Machine

open Finset (range)

/-! ## Words as polynomials over the field of two elements

XOR of words is addition of polynomials and the carry-less product is their product, so that the algebra of CLMUL is that
of a polynomial ring of characteristic 2. -/

/-- A bit as an element of the field of two elements. -/
def bitCoeff (c : Bool) : ZMod 2 :=
  if c then 1 else 0

@[simp] theorem bitCoeff_false : bitCoeff false = 0 := rfl

@[simp] theorem bitCoeff_true : bitCoeff true = 1 := rfl

theorem bitCoeff_xor (c d : Bool) : bitCoeff (c ^^ d) = bitCoeff c + bitCoeff d := by
  cases c <;> cases d <;> decide

theorem bitCoeff_and (c d : Bool) : bitCoeff (c && d) = bitCoeff c * bitCoeff d := by
  cases c <;> cases d <;> decide

theorem bitCoeff_injective : Function.Injective bitCoeff := by
  decide

/-- A fold of XOR is a sum in the field of two elements. -/
theorem bitCoeff_foldl_xor (f : Nat → Bool) (c : Bool) (n : Nat) :
    bitCoeff ((List.range n).foldl (fun p i => p ^^ f i) c) = bitCoeff c + ∑ i ∈ range n, bitCoeff (f i) := by
  induction n with
  | zero => simp
  | succ n ih =>
    rw [List.range_succ, List.foldl_append, List.foldl_cons, List.foldl_nil, bitCoeff_xor, ih, Finset.sum_range_succ,
      add_assoc]

/-- The polynomial whose coefficients are the bits of a word. -/
noncomputable def toPoly {n : Nat} (v : BitVec n) : Polynomial (ZMod 2) :=
  ∑ i ∈ range n, Polynomial.C (bitCoeff (v.getLsbD i)) * Polynomial.X ^ i

@[simp] theorem coeff_toPoly {n : Nat} (v : BitVec n) (k : Nat) : (toPoly v).coeff k = bitCoeff (v.getLsbD k) := by
  by_cases hk : k < n
  · simp [toPoly, Polynomial.coeff_X_pow, hk]
  · simp [toPoly, Polynomial.coeff_X_pow, hk, BitVec.getLsbD_of_ge v k (by omega)]

/-- Zero extension adds no set bit (00_scope.md R7). -/
@[simp] theorem getLsbD_zext128 (v : Bits64) (k : Nat) : (zext128 v).getLsbD k = v.getLsbD k := by
  by_cases hk : k < 128
  · simp [zext128, hk]
  · simp [zext128, hk, BitVec.getLsbD_of_ge v k (by omega)]

/-- A bit of the carry-less product as a sum over the bits of `a` (40_clmul.md R80, R81). -/
theorem bitCoeff_getLsbD_clmul (a b : Bits64) (k : Nat) :
    bitCoeff ((clmul a b).getLsbD k) =
      ∑ i ∈ range 64, bitCoeff (a.getLsbD i) * if i ≤ k then bitCoeff (b.getLsbD (k - i)) else 0 := by
  by_cases hk : k < 128
  · rw [clmul, clmulLoop_getLsbD _ _ _ _ _ _ hk, bitCoeff_foldl_xor]
    simp only [BitVec.getLsbD_zero, bitCoeff_false, zero_add, bitCoeff_and]
    refine Finset.sum_congr rfl fun i _ => ?_
    by_cases hik : i ≤ k <;> simp [hik]
  · rw [BitVec.getLsbD_of_ge _ _ (by omega), bitCoeff_false]
    refine (Finset.sum_eq_zero fun i hi => ?_).symm
    rw [Finset.mem_range] at hi
    simp [BitVec.getLsbD_of_ge b (k - i) (by omega)]

/-- The carry-less product is the product of polynomials over the field of two elements. -/
theorem toPoly_clmul (a b : Bits64) : toPoly (clmul a b) = toPoly a * toPoly b := by
  ext k
  rw [coeff_toPoly, bitCoeff_getLsbD_clmul, toPoly, Finset.sum_mul, Polynomial.finsetSum_coeff]
  refine Finset.sum_congr rfl fun i _ => ?_
  rw [mul_assoc, Polynomial.coeff_C_mul, Polynomial.coeff_X_pow_mul', coeff_toPoly]

/-- Squaring over the field of two elements puts coefficient `i` at place `2i` (41_morton.md R101). -/
theorem toPoly_dilate (a : Bits64) : toPoly (dilate a) = Polynomial.expand (ZMod 2) 2 (toPoly a) := by
  rw [dilate, toPoly_clmul, ← sq, ZMod.expand_card]

/-- Bit `i` of the operand stands at place `2i` of its dilation, and the odd places are 0 (41_morton.md R101). -/
theorem getLsbD_dilate (a : Bits64) (k : Nat) :
    (dilate a).getLsbD k = (decide (2 ∣ k) && a.getLsbD (k / 2)) := by
  apply bitCoeff_injective
  rw [← coeff_toPoly, toPoly_dilate, Polynomial.coeff_expand two_pos, coeff_toPoly]
  by_cases hk : 2 ∣ k <;> simp [hk]

theorem getLsbD_dilate_odd (a : Bits64) {k : Nat} (hk : ¬ 2 ∣ k) : (dilate a).getLsbD k = false := by
  simp [getLsbD_dilate, hk]

/-- A dilation and a dilation moved by one place share no set bit: one is 0 at the odd places, the other at the even
ones (41_morton.md R102). -/
theorem dilate_shiftLeft_and_dilate (x y : Bits64) : (dilate y <<< 1) &&& dilate x = 0 := by
  refine BitVec.eq_of_getLsbD_eq fun k _ => ?_
  rw [BitVec.getLsbD_and, BitVec.getLsbD_shiftLeft]
  by_cases hk : 2 ∣ k
  · by_cases h0 : k = 0
    · simp [h0]
    · simp [getLsbD_dilate_odd y (show ¬ 2 ∣ k - 1 by omega)]
  · simp [getLsbD_dilate_odd x hk]

/-! ## The response of an instruction -/

theorem responds_responseOf (i : Instr) : Responds i (responseOf i) :=
  exec_eq i

/-! ## Encoding and decoding -/

/-- A request word is the word of its three fields (30_encoding.md R60). -/
theorem packFields_fields (w : ReqWord) : packFields (opField w) (bField w) (aField w) = w := by
  have hopb : opField w ++ bField w = w.extractLsb' 64 67 := BitVec.extractLsb'_append_extractLsb'_eq_extractLsb' rfl
  have hall : w.extractLsb' 64 67 ++ aField w = w.extractLsb' 0 131 :=
    BitVec.extractLsb'_append_extractLsb'_eq_extractLsb' rfl
  rw [packFields, hopb, hall, BitVec.extractLsb'_eq_self]

@[simp] theorem decode_encode (i : Instr) : decode (encode i) = .op i := by
  rw [encode, decode_packFields]
  cases i <;> rfl

theorem encode_of_decode {w : ReqWord} {i : Instr} (h : decode w = .op i) : encode i = w := by
  obtain ⟨_, hop, ha, hb⟩ := decodeFields_eq_op h
  rw [encode, hop, ha, hb, packFields_fields]

/-- The opcode table's numbering of the bits reads a request word in any number of bits that holds it
(30_encoding.md R67). -/
theorem decodeTableWord_toNat {nbits : Nat} (hn : 131 ≤ nbits) {w : ReqWord} {i : Instr} (h : decode w = .op i) :
    decodeTableWord nbits w.toNat = some i := by
  have hmod : w.toNat % 2 ^ nbits = w.toNat :=
    Nat.mod_eq_of_lt (w.isLt.trans_le (Nat.pow_le_pow_right two_pos hn))
  have hfits : rawWordFits w.toNat = true := by simpa [rawWordFits] using w.isLt
  simp [decodeTableWord, hmod, hfits, h]

/-! ## The assembler (30_encoding.md R69) -/

theorem operandOf_of_lt {n : Nat} (h : n < 2 ^ 64) : operandOf n = some (BitVec.ofNat 64 n) :=
  if_pos (by simpa [literalFits] using h)

theorem operandOf_of_le {n : Nat} (h : 2 ^ 64 ≤ n) : operandOf n = none :=
  if_neg (by simpa [literalFits] using h)

theorem assembleFields_of_lt (op : Bits3) {a b : Nat} (ha : a < 2 ^ 64) (hb : b < 2 ^ 64) :
    assembleFields op a b = some (packFields op (BitVec.ofNat 64 b) (BitVec.ofNat 64 a)) := by
  rw [assembleFields, operandOf_of_lt ha, operandOf_of_lt hb]

theorem assembleFields_of_le (op : Bits3) {a b : Nat} (h : 2 ^ 64 ≤ a ∨ 2 ^ 64 ≤ b) : assembleFields op a b = none := by
  unfold assembleFields
  obtain h | h := h
  · rw [operandOf_of_le h]
  · rw [operandOf_of_le h]
    cases operandOf a <;> rfl

/-- Literals that fit assemble to a word that decodes by its `op` and the two literals. -/
theorem assembleFields_decodes (op : Bits3) {a b : Nat} (ha : a < 2 ^ 64) (hb : b < 2 ^ 64) :
    ∃ w, assembleFields op a b = some w ∧ decode w = decodeFields op (BitVec.ofNat 64 b) (BitVec.ofNat 64 a) :=
  ⟨_, assembleFields_of_lt op ha hb, decode_packFields _ _ _⟩

/-- An assembled word holds the second literal in its field `b`. -/
theorem bField_of_assembleFields {op : Bits3} {a b : Nat} {w : ReqWord} (h : assembleFields op a b = some w) :
    bField w = BitVec.ofNat 64 b := by
  by_cases hfit : a < 2 ^ 64 ∧ b < 2 ^ 64
  · obtain rfl : packFields op (BitVec.ofNat 64 b) (BitVec.ofNat 64 a) = w := by
      simpa [assembleFields_of_lt op hfit.1 hfit.2] using h
    exact bField_packFields _ _ _
  · simp [assembleFields_of_le op (show 2 ^ 64 ≤ a ∨ 2 ^ 64 ≤ b by omega)] at h

/-! ## The statements of 30_encoding.md -/

/-- Settles O14: the encoder packs what the decoder reads, and the fields of a word make it up. -/
theorem decodeEncodeAgree : Obligations.DecodeEncodeAgree :=
  ⟨fun i _ => ⟨decode_encode i, decodeTableWord_toNat le_rfl (decode_encode i),
    decodeTableWord_toNat (by omega) (decode_encode i)⟩, fun _ _ => encode_of_decode⟩

/-- Settles O6: the identities are the definitions of DILATE and MORTON; a dilated value is 0 at every odd place. -/
theorem identitiesBetweenRequests : Obligations.IdentitiesBetweenRequests := fun x y b b' =>
  ⟨dilate x, dilate y, morton x y, responds_responseOf (.clmul x x), responds_responseOf (.dilate x b),
    responds_responseOf (.dilate y b'), responds_responseOf (.morton x y), rfl, getLsbD_dilate_odd y (by decide),
    dilate_shiftLeft_and_dilate x y⟩

/-- Settles O15, by the cases of the operation map. -/
theorem decodingIsTotal : Obligations.DecodingIsTotal := by
  intro w
  obtain ⟨hop, hdecode⟩ | ⟨hop, hdecode⟩ := decodeFields_cases (opField w) (bField w) (aField w)
  · exact ⟨fun _ => hdecode, fun h => absurd hop (Nat.not_le.2 h)⟩
  · exact ⟨fun h => absurd hop (Nat.not_le.2 (Nat.lt_succ_of_le h)), fun _ => hdecode⟩

/-- Settles O17: two literals assemble exactly when both fit, and 0 fits as the `b` of a unary form. -/
theorem assemblerAcceptsFittingLiterals : Obligations.AssemblerAcceptsFittingLiterals := by
  intro a b
  have hzero : 0 < 2 ^ 64 := Nat.two_pow_pos 64
  refine ⟨fun ha hb => ⟨?_, ?_, ?_⟩, fun ha => ⟨?_, ?_⟩, fun ha => ⟨?_, ?_⟩, fun hab => ⟨?_, ?_, ?_⟩, fun ha => ?_,
    fun ha => ?_⟩
  · exact assembleFields_decodes 0#3 ha hb
  · exact assembleFields_decodes 2#3 ha hb
  · exact assembleFields_decodes 4#3 ha hb
  · exact assembleFields_decodes 1#3 ha hzero
  · exact assembleFields_decodes 3#3 ha hzero
  · exact assembleFields_of_le 1#3 (.inl ha)
  · exact assembleFields_of_le 3#3 (.inl ha)
  · exact assembleFields_of_le 0#3 hab
  · exact assembleFields_of_le 2#3 hab
  · exact assembleFields_of_le 4#3 hab
  · exact if_pos (by simpa [rawWordFits] using ha)
  · exact if_neg (by simpa [rawWordFits] using ha)

/-- Settles O11: the response of a unary operation does not depend on `b`, which the assembler sets to the literal 0. -/
theorem unaryOperationsIgnoreB : Obligations.UnaryOperationsIgnoreB := by
  refine ⟨fun a b b' s => ⟨?_, ?_⟩, fun n w hw => ?_⟩
  · exact (exec_eq (.dilate a b) s).trans (exec_eq (.dilate a b') s).symm
  · exact (exec_eq (.dilateMagic a b) s).trans (exec_eq (.dilateMagic a b') s).symm
  · obtain h | h := hw
    · exact bField_of_assembleFields (op := 1#3) h
    · exact bField_of_assembleFields (op := 3#3) h

end Sys2Proof.Machine

/-! SUPPORT. The reference loop of CLMUL against the parity form; the statement of 40_clmul.md. -/

namespace Sys2Proof.Machine

/-- The reference loop and the parity form agree bit by bit (40_clmul.md R80, R81): from iteration 0 on, with an empty
accumulator and `b` as the working copy, the loop XORs `a[i] AND b[k - i]` into bit `k` for every `i` below 64. -/
theorem getLsbD_clmul (a b : Bits64) {k : Nat} (hk : k < 128) : (clmul a b).getLsbD k = clmulParity a b k := by
  rw [clmul, clmulLoop_getLsbD _ _ _ _ _ _ hk, clmulParity]
  simp only [Nat.zero_add, getLsbD_zext128, BitVec.getLsbD_zero]

/-- Settles O1: CLMUL responds its product in every state, and the bits of the product are the parities. -/
theorem clmulRespondsParityProduct : Obligations.ClmulRespondsParityProduct := fun a b =>
  ⟨clmul a b, responds_responseOf (.clmul a b), fun _ hk => getLsbD_clmul a b hk⟩

end Sys2Proof.Machine

/-! SUPPORT. The magic results by their range, in range and out of range in one equation; the statement of 41_morton.md. -/

namespace Sys2Proof.Machine

/-- The result of DILATE_MAGIC for every operand (41_morton.md R105). -/
theorem dilateMagic_eq_ite (a : Bits64) :
    dilateMagic a = if a.toNat < 65536 then respHalf0 (dilate a) else Config.magicDilateWide a := by
  split
  · next ha => exact dilateMagic_of_inRange ha
  · next ha => exact dilateMagic_of_wide (Nat.not_lt.1 ha)

/-- The result of MORTON_MAGIC for every two operands (41_morton.md R107). -/
theorem mortonMagic_eq_ite (x y : Bits64) :
    mortonMagic x y =
      if x.toNat < 65536 ∧ y.toNat < 65536 then respHalf0 (morton x y) else Config.magicMortonWide x y := by
  split
  · next hxy => exact mortonMagic_of_inRange hxy.1 hxy.2
  · next hxy => exact mortonMagic_of_wide (by omega)

/-- Settles O7: the response is the zero-extended result, so its halves are the result and 0. -/
theorem magicResponsePlacement : Obligations.MagicResponsePlacement := by
  intro a b
  constructor
  · exact ⟨zext128 (dilateMagic a), dilate a, responds_responseOf (.dilateMagic a b), responds_responseOf (.dilate a b),
      zext128_half1 _, (zext128_half0 _).trans (dilateMagic_eq_ite a)⟩
  · exact ⟨zext128 (mortonMagic a b), morton a b, responds_responseOf (.mortonMagic a b),
      responds_responseOf (.morton a b), zext128_half1 _, (zext128_half0 _).trans (mortonMagic_eq_ite a b)⟩

end Sys2Proof.Machine

/-! SUPPORT. A step of a run with a recorded fault or refusal; the statements of 60_exceptions.md. -/

namespace Sys2Proof.Machine

/-! ## Stopped runs (60_exceptions.md R139) -/

theorem State.clean_eq_false_of_fault {s : State} {x : Fault × Nat} (h : s.fault = some x) : s.clean = false := by
  simp [State.clean, State.stopped, h]

theorem State.clean_eq_false_of_refused {s : State} {x : RecordedRefusal × Nat} (h : s.refused = some x) :
    s.clean = false := by
  simp [State.clean, State.stopped, h]

/-- Only the reset line moves a stopped run, and it changes neither the record nor the responses
(70_reset_and_hazards.md R160). -/
theorem perform_of_stopped {e : Event} {s t : State} (hs : s.clean = false) (h : perform e s = .next t) :
    t.fault = s.fault ∧ t.refused = s.refused ∧ t.out = s.out := by
  obtain ⟨_, rfl⟩ | ⟨_, rfl⟩ | ⟨_, rfl⟩ | ⟨hc, _⟩ := perform_cases h
  · exact ⟨rfl, rfl, rfl⟩
  · exact ⟨rfl, rfl, rfl⟩
  · exact ⟨rfl, rfl, rfl⟩
  · simp [hs] at hc

theorem step_of_stopped {s t : State} (hs : s.clean = false) (h : step s = .next t) :
    t.fault = s.fault ∧ t.refused = s.refused ∧ t.out = s.out := by
  rw [step_eq, nextEvent_state] at h
  exact perform_of_stopped (s := { s with script := s.script.tail }) hs h

/-- A request whose `op` is 5, 6 or 7 is read as reserved (30_encoding.md R68). -/
theorem Request.decoded_of_reserved {r : Request} (h5 : 5 ≤ r.op.toNat) : r.decoded = .reserved r.op := by
  obtain ⟨h4, _⟩ | ⟨_, hr⟩ := decodeFields_cases r.op r.b r.a
  · omega
  · exact hr

/-! ## The statements of 60_exceptions.md -/

/-- Settles O22: ACCEPT does not read the `op`; RESPOND of a reserved request records the fault, which stops the run. -/
theorem reservedRequestFaultsRun : Obligations.ReservedRequestFaultsRun := by
  intro s r hc hrst h5
  refine ⟨fun hu hroom ho => ?_, fun rest hp => ?_⟩
  · obtain ⟨hoffered, _⟩ := acceptTransfersOfferedRequest s hc
    obtain ⟨_, htransfer, _⟩ := hoffered r ho hrst
    exact htransfer hu hroom
  · obtain ⟨_, hreserved, _⟩ := respondDeliversOldest s hc hrst
    obtain ⟨v, n, hrespond, hindex⟩ := hreserved r rest r.op hp (Request.decoded_of_reserved h5)
    refine ⟨_, v, n, hrespond, rfl, rfl, rfl, hindex, State.clean_eq_false_of_fault rfl, fun u hstep => ?_⟩
    obtain ⟨hfault, _⟩ := step_of_stopped (State.clean_eq_false_of_fault rfl) hstep
    exact ⟨hfault, State.clean_eq_false_of_fault hfault⟩

/-- Settles O23: ACCEPT without the unit records the refusal whatever it is offered, which stops the run. -/
theorem absentUnitRefusesProgram : Obligations.AbsentUnitRefusesProgram := by
  intro s r hc hrst hu ho
  obtain ⟨hnofault, _⟩ := (State.clean_iff s).1 hc
  obtain ⟨hoffered, _⟩ := acceptTransfersOfferedRequest s hc
  obtain ⟨hrefuse, _⟩ := hoffered r ho hrst
  refine ⟨_, hrefuse hu, rfl, hnofault, fun u hstep => ?_⟩
  obtain ⟨hfault, hrefused, hout⟩ := step_of_stopped (State.clean_eq_false_of_refused rfl) hstep
  exact ⟨hrefused, hfault.trans hnofault, hout⟩

/-- Settles O25: a record stops the run, and a stopped run keeps its record and is not final. -/
theorem recordedOutcomeIsKept : Obligations.RecordedOutcomeIsKept := by
  refine fun s t => ⟨fun h => ⟨fun x hx => ?_, fun x hx => ?_⟩, fun hrecorded => ?_⟩
  · obtain ⟨hfault, _⟩ := step_of_stopped (State.clean_eq_false_of_fault hx) h
    exact hfault.trans hx
  · obtain ⟨_, hrefused, _⟩ := step_of_stopped (State.clean_eq_false_of_refused hx) h
    exact hrefused.trans hx
  · refine Bool.eq_false_iff.2 fun hfinal => ?_
    obtain ⟨_, hfault, hrefused⟩ := (State.final_iff s).1 hfinal
    simp [hfault, hrefused] at hrecorded

/-- Settles O13: an instruction responds its value in every state. -/
theorem everyInstructionCompletes : Obligations.EveryInstructionCompletes :=
  fun i => ⟨responseOf i, responds_responseOf i⟩

/-- Settles O26: in a clean run a read outside a response records the fault. -/
theorem readOutsideResponseFaults : Obligations.ReadOutsideResponseFaults :=
  fun _ => perform_sampleResult

end Sys2Proof.Machine

/-! SUPPORT. What a turn of transfers and delays does to a run out of reset; runs under a fair unit; the statements of
70_reset_and_hazards.md. -/

namespace Sys2Proof.Machine

/-! ## Transfers (10_state.md R29, R30) -/

/-- The transfer is enabled: both sides of its channel can be ready, as far as the state says (10_state.md R25, R26). -/
def State.Enabled (s : State) : Event → Prop
  | .accept => s.reqReady = true ∧ s.reqValid = true
  | .respond => s.respValid = true
  | _ => False

theorem State.enabled_accept {s : State} {r : Request} (hrst : s.rst = false)
    (hroom : s.pending.length < s.platform.queueDepth) (ho : s.program[s.position]? = some r) : s.Enabled .accept :=
  ⟨(State.reqReady_iff s).2 ⟨hrst, hroom⟩, by simp [State.reqValid, State.offered, ho]⟩

theorem State.enabled_respond {s : State} (hrst : s.rst = false) (hp : s.pending ≠ []) : s.Enabled .respond :=
  (State.respValid_iff s).2 ⟨hrst, hp⟩

/-- What a delay or a transfer does out of reset, with the unit present and the oldest pending request defined: an enabled
transfer takes place, and nothing else does. -/
inductive Transfer (s : State) : Event → State → Prop where
  | delay {e : Event} (he : ¬ s.Enabled e) : Transfer s e s
  | accept {r : Request} (ho : s.program[s.position]? = some r) :
      Transfer s .accept { s with pending := s.pending ++ [r], position := s.position + 1 }
  | respond {r : Request} {rest : List Request} {v : Bits128} (hp : s.pending = r :: rest) (hv : r.value? = some v) :
      Transfer s .respond { s with pending := rest, out := s.out ++ [v] }

/-- A clean run out of reset, on a platform with the unit. -/
structure State.Running (s : State) : Prop where
  clean : s.clean = true
  released : s.rst = false
  hasUnit : s.platform.hasUnit = true

/-- The oldest pending request, if there is one, is defined. -/
def State.OldestDefined (s : State) : Prop :=
  ∀ r ∈ s.pending.head?, r.op.toNat ≤ 4

theorem State.oldestDefined_of_forall {s : State} (h : ∀ r ∈ s.pending, r.op.toNat ≤ 4) : s.OldestDefined :=
  fun r hr => h r (List.mem_of_mem_head? hr)

theorem Transfer.running {s t : State} {e : Event} (h : Transfer s e t) (hs : s.Running) : t.Running := by
  cases h <;> exact ⟨hs.clean, hs.released, hs.hasUnit⟩

theorem acceptEvent_transfer {s : State} (hs : s.Running) : Transfer s .accept (acceptEvent s) := by
  cases ho : s.offered with
  | none =>
    rw [acceptEvent_of_not_offered ho]
    exact .delay (by simp [State.Enabled, State.reqValid, ho])
  | some r =>
    cases hq : s.reqReady with
    | true =>
      rw [acceptEvent_of_ready ho hs.hasUnit hq]
      exact .accept ho
    | false =>
      rw [acceptEvent_of_not_ready hs.hasUnit hq]
      exact .delay (by simp [State.Enabled, hq])

theorem respondEvent_transfer {s : State} (hs : s.Running) (hdef : s.OldestDefined) :
    ∃ t, respondEvent s = .next t ∧ Transfer s .respond t := by
  cases hp : s.pending with
  | nil => exact ⟨s, respondEvent_of_empty hp, .delay (by simp [State.Enabled, hp])⟩
  | cons r rest =>
    obtain ⟨v, hv⟩ := Request.exists_value (hdef r (by simp [hp]))
    exact ⟨_, respondEvent_of_value hs.released hp hv, .respond hp hv⟩

/-- A schedule of transfers and delays takes such a run on at every turn. -/
theorem transfer_of_turn {τ : Nat → Turn} (honly : OnlyTransfers τ) {s : State} (hs : s.Running)
    (hdef : s.OldestDefined) (n : Nat) :
    ∃ t, perform (eventsOf τ n) s = .next t ∧ Transfer s (eventsOf τ n) t := by
  obtain h | h | h := honly n <;> rw [h]
  · exact ⟨_, perform_accept hs.clean, acceptEvent_transfer hs⟩
  · rw [perform_respond hs.clean]
    exact respondEvent_transfer hs hdef
  · exact ⟨s, perform_idle hs.clean, .delay id⟩

/-! ## Fair units (70_reset_and_hazards.md R168) -/

/-- If from some time on the transfer `e` is enabled, it eventually happens. -/
def FairTo (e : Event) (τ : Nat → Turn) (s : State) : Prop :=
  ∀ n, (∀ m, n ≤ m → ∃ t, runOn (eventsOf τ) m s = .next t ∧ t.Enabled e) → ∃ m, n ≤ m ∧ eventsOf τ m = e

theorem RespondFair.fairTo {τ : Nat → Turn} {s : State} (h : RespondFair τ s) (htaking : HostKeepsTaking τ) :
    FairTo .respond τ s := by
  refine fun n hstays => h n fun m hm => ?_
  obtain ⟨t, ht, hvalid⟩ := hstays m hm
  exact ⟨t, ht, hvalid, htaking m⟩

theorem AcceptFair.fairTo {τ : Nat → Turn} {s : State} (h : AcceptFair τ s) (hoffering : HostKeepsOffering τ) :
    FairTo .accept τ s := by
  refine fun n hstays => h n fun m hm => ?_
  obtain ⟨t, ht, hready, hvalid⟩ := hstays m hm
  exact ⟨t, ht, hready, hvalid, hoffering m⟩

/-- If all over `C` the transfer `e` is enabled and leads into `D`, and the others lead into `D` or back into `C`, then a
unit that is fair to `e` brings the run from `C` into `D`. -/
theorem eventually_of_fairTo {τ : Nat → Turn} {s : State} {C D : State → Prop} {e : Event} (hfair : FairTo e τ s)
    (honly : OnlyTransfers τ) (hC : ∀ t, C t → t.Running ∧ t.OldestDefined ∧ t.Enabled e)
    (hstep : ∀ t u e', C t → Transfer t e' u → (D u ∨ C u) ∧ (e' = e → D u)) {n : Nat} {t : State}
    (ht : runOn (eventsOf τ) n s = .next t) (hCt : C t) : ∃ m u, runOn (eventsOf τ) m s = .next u ∧ D u := by
  have hturn : ∀ t n, C t →
      ∃ u, perform (eventsOf τ n) t = .next u ∧ (D u ∨ C u) ∧ (eventsOf τ n = e → D u) := by
    intro t n hCt
    obtain ⟨hrun, hdef, _⟩ := hC t hCt
    obtain ⟨u, hu, htransfer⟩ := transfer_of_turn honly hrun hdef n
    exact ⟨u, hu, hstep t u _ hCt htransfer⟩
  have hhappens : ∀ n, (∀ m, n ≤ m → ∃ t, runOn (eventsOf τ) m s = .next t ∧ C t) →
      ∃ m, n ≤ m ∧ eventsOf τ m = e := by
    refine fun n hstays => hfair n fun m hm => ?_
    obtain ⟨t, ht, hCt⟩ := hstays m hm
    obtain ⟨_, _, henabled⟩ := hC t hCt
    exact ⟨t, ht, henabled⟩
  obtain ⟨m, u, _, hu⟩ := eventually_of_fair hturn hhappens ht hCt
  exact ⟨m, u, hu⟩

/-! ## A host that keeps taking -/

/-- `vs` is delivered, and the requests `rs` are the next ones to respond to, whatever was accepted behind them. -/
def State.Awaits (rs : List Request) (vs : List Bits128) (s : State) : Prop :=
  s.Running ∧ s.out = vs ∧ rs <+: s.pending

/-- While `r` is the next request to respond to, a RESPOND delivers its value, and any other transfer leaves it the next. -/
theorem Transfer.awaits {s t : State} {e : Event} {r : Request} {rs : List Request} {v : Bits128}
    {vs : List Bits128} (h : Transfer s e t) (hv : r.value? = some v) (hs : s.Awaits (r :: rs) vs) :
    (t.Awaits rs (vs ++ [v]) ∨ t.Awaits (r :: rs) vs) ∧ (e = .respond → t.Awaits rs (vs ++ [v])) := by
  obtain ⟨hrun, rfl, later, hp⟩ := id hs
  have hrun' := h.running hrun
  cases h with
  | delay he =>
    refine ⟨.inr hs, fun hresp => absurd ?_ he⟩
    exact hresp ▸ State.enabled_respond hrun.released (by simp [← hp])
  | @accept q => exact ⟨.inr ⟨hrun', rfl, later ++ [q], by simp [← hp]⟩, nofun⟩
  | respond hp' hv' =>
    rw [← hp, List.cons_append, List.cons.injEq] at hp'
    obtain ⟨rfl, hrest⟩ := hp'
    obtain rfl := Option.some.inj (hv.symm.trans hv')
    exact ⟨.inl ⟨hrun', rfl, later, hrest⟩, fun _ => ⟨hrun', rfl, later, hrest⟩⟩

/-- A unit that is fair to RESPOND delivers the values of all defined requests awaited, in their order. -/
theorem eventually_delivered {τ : Nat → Turn} {s : State} (hfair : FairTo .respond τ s) (honly : OnlyTransfers τ)
    {rs : List Request} (hdef : ∀ r ∈ rs, r.op.toNat ≤ 4) {n : Nat} {t : State} {vs : List Bits128}
    (ht : runOn (eventsOf τ) n s = .next t) (hs : t.Awaits rs vs) :
    ∃ m u, runOn (eventsOf τ) m s = .next u ∧ u.out.map some = vs.map some ++ rs.map Request.value? := by
  induction rs generalizing n t vs with
  | nil =>
    obtain ⟨_, hout, _⟩ := hs
    exact ⟨n, t, ht, by simp [hout]⟩
  | cons r rs ih =>
    obtain ⟨hr, hrs⟩ := List.forall_mem_cons.1 hdef
    obtain ⟨v, hv⟩ := Request.exists_value hr
    have henabled : ∀ t, State.Awaits (r :: rs) vs t → t.Running ∧ t.OldestDefined ∧ t.Enabled .respond := by
      intro t ⟨hrun, _, later, hp⟩
      exact ⟨hrun, by simp [State.OldestDefined, ← hp, hr], State.enabled_respond hrun.released (by simp [← hp])⟩
    obtain ⟨m, u, hu, hnext⟩ :=
      eventually_of_fairTo hfair honly henabled (fun _ _ _ hC htransfer => htransfer.awaits hv hC) ht hs
    obtain ⟨m', u', hu', hout⟩ := ih hrs hu hnext
    exact ⟨m', u', hu', by simp [hout, hv]⟩

/-! ## A host that keeps offering -/

/-- The request `r` at position `p` is offered to a queue with room, in which all requests are defined. -/
def State.Offers (r : Request) (p : Nat) (s : State) : Prop :=
  s.Running ∧ (∀ q ∈ s.pending, q.op.toNat ≤ 4) ∧ s.pending.length < s.platform.queueDepth ∧ s.position = p ∧
    s.program[p]? = some r

/-- The request `r` at position `p` has been accepted and is the youngest pending one. -/
def State.JustAccepted (r : Request) (p : Nat) (s : State) : Prop :=
  s.position = p + 1 ∧ s.pending.getLast? = some r

theorem State.Offers.enabled {s : State} {r : Request} {p : Nat} (h : s.Offers r p) :
    s.Running ∧ s.OldestDefined ∧ s.Enabled .accept := by
  obtain ⟨hrun, hdef, hroom, rfl, ho⟩ := h
  exact ⟨hrun, State.oldestDefined_of_forall hdef, State.enabled_accept hrun.released hroom ho⟩

/-- While `r` is offered to a queue with room, an ACCEPT takes it, and any other transfer leaves it offered. -/
theorem Transfer.offers {s t : State} {e : Event} {r : Request} {p : Nat} (h : Transfer s e t) (hs : s.Offers r p) :
    (t.JustAccepted r p ∨ t.Offers r p) ∧ (e = .accept → t.JustAccepted r p) := by
  obtain ⟨hrun, hdef, hroom, rfl, ho⟩ := id hs
  have hrun' := h.running hrun
  cases h with
  | delay he =>
    refine ⟨.inr hs, fun hacc => absurd ?_ he⟩
    exact hacc ▸ State.enabled_accept hrun.released hroom ho
  | accept ho' =>
    obtain rfl := Option.some.inj (ho.symm.trans ho')
    exact ⟨.inl ⟨rfl, List.getLast?_concat⟩, fun _ => ⟨rfl, List.getLast?_concat⟩⟩
  | respond hp =>
    rw [hp] at hdef hroom
    exact ⟨.inr ⟨hrun', (List.forall_mem_cons.1 hdef).2, Nat.lt_of_succ_lt hroom, rfl, ho⟩, nofun⟩

/-! ## The end of a run (70_reset_and_hazards.md R170) -/

/-- The transfers a run has still to make: two for each request to issue, one for each pending one. -/
def State.transfersLeft (s : State) : Nat :=
  2 * (s.program.length - s.position) + s.pending.length

/-- The requests without a response: those pending, and those to issue. -/
def State.unanswered (s : State) : List Request :=
  s.pending ++ s.program.drop s.position

/-- A run that can end with the responses `vs` only: all requests without a response are defined, and their values are
those that `vs` holds behind the responses delivered. -/
def State.EndsWith (vs : List (Option Bits128)) (s : State) : Prop :=
  s.Running ∧ 1 ≤ s.platform.queueDepth ∧ s.position ≤ s.program.length ∧
    (∀ r ∈ s.unanswered, r.op.toNat ≤ 4) ∧ s.out.map some ++ s.unanswered.map Request.value? = vs

/-- A run that ends with `vs` and has fewer transfers to make than `s`. -/
def State.CloserThan (s : State) (vs : List (Option Bits128)) (t : State) : Prop :=
  t.EndsWith vs ∧ t.transfersLeft < s.transfersLeft

/-- An ACCEPT leaves the requests without a response as they are. -/
theorem State.unanswered_accept {s : State} {r : Request} (ho : s.program[s.position]? = some r) :
    State.unanswered { s with pending := s.pending ++ [r], position := s.position + 1 } = s.unanswered := by
  obtain ⟨hlt, rfl⟩ := List.getElem?_eq_some_iff.1 ho
  simp [State.unanswered]

theorem Transfer.endsWith {s t : State} {e : Event} {vs : List (Option Bits128)} (h : Transfer s e t)
    (hs : s.EndsWith vs) : t.EndsWith vs := by
  obtain ⟨hrun, hdepth, hpos, hdef, hvs⟩ := id hs
  have hrun' := h.running hrun
  cases h with
  | delay => exact hs
  | accept ho =>
    obtain ⟨hlt, _⟩ := List.getElem?_eq_some_iff.1 ho
    rw [← State.unanswered_accept ho] at hdef hvs
    exact ⟨hrun', hdepth, hlt, hdef, hvs⟩
  | @respond r rest v hp hv =>
    have hfirst : s.unanswered = r :: (rest ++ s.program.drop s.position) := by simp [State.unanswered, hp]
    rw [hfirst] at hdef hvs
    exact ⟨hrun', hdepth, hpos, (List.forall_mem_cons.1 hdef).2, by simpa [State.unanswered, hv] using hvs⟩

/-- An enabled transfer is one less to make; any other leaves the run where it is. -/
theorem Transfer.closerThan {s t : State} {e : Event} {vs : List (Option Bits128)} (h : Transfer s e t)
    (hs : s.EndsWith vs) : (s.CloserThan vs t ∨ s = t) ∧ (s.Enabled e → s.CloserThan vs t) := by
  have hends := h.endsWith hs
  cases h with
  | delay he => exact ⟨.inr rfl, fun henabled => absurd henabled he⟩
  | accept ho =>
    obtain ⟨hlt, _⟩ := List.getElem?_eq_some_iff.1 ho
    have hless : State.CloserThan s vs _ := ⟨hends, by simp [State.transfersLeft]; omega⟩
    exact ⟨.inl hless, fun _ => hless⟩
  | respond hp =>
    have hless : State.CloserThan s vs _ := ⟨hends, by simp [State.transfersLeft, hp]⟩
    exact ⟨.inl hless, fun _ => hless⟩

/-- A run that has not ended can respond, or can accept while nothing is pending. -/
theorem State.EndsWith.enabled {s : State} {vs : List (Option Bits128)} (hs : s.EndsWith vs)
    (hfinal : ¬ s.final = true) : s.Enabled .respond ∨ s.Enabled .accept := by
  obtain ⟨hrun, hdepth, hpos, _, _⟩ := hs
  by_cases hp : s.pending = []
  · have hlt : s.position < s.program.length := by
      refine lt_of_le_of_ne hpos fun hend => hfinal ?_
      exact (State.final_iff s).2 ⟨⟨hend, hp⟩, (State.clean_iff s).1 hrun.clean⟩
    exact .inr (State.enabled_accept hrun.released (by rw [hp]; exact hdepth) (List.getElem?_eq_getElem hlt))
  · exact .inl (State.enabled_respond hrun.released hp)

/-- An enabled transfer that the unit is fair to brings the run closer to its end. -/
theorem eventually_closer {τ : Nat → Turn} {s : State} {e : Event} (hfair : FairTo e τ s) (honly : OnlyTransfers τ)
    {n : Nat} {t : State} {vs : List (Option Bits128)} (ht : runOn (eventsOf τ) n s = .next t) (hs : t.EndsWith vs)
    (henabled : t.Enabled e) : ∃ m u, runOn (eventsOf τ) m s = .next u ∧ t.CloserThan vs u := by
  refine eventually_of_fairTo (C := (t = ·)) hfair honly ?_ ?_ ht rfl
  · rintro _ rfl
    obtain ⟨hrun, _, _, hdef, _⟩ := hs
    exact ⟨hrun, State.oldestDefined_of_forall fun r hr => hdef r (List.mem_append_left _ hr), henabled⟩
  · rintro _ u e' rfl htransfer
    exact (htransfer.closerThan hs).imp_right fun hcloser he => hcloser (he ▸ henabled)

/-- A unit that is fair to both transfers ends the run. -/
theorem eventually_final {τ : Nat → Turn} {s : State} (hresp : FairTo .respond τ s) (hacc : FairTo .accept τ s)
    (honly : OnlyTransfers τ) {n : Nat} {t : State} {vs : List (Option Bits128)}
    (ht : runOn (eventsOf τ) n s = .next t) (hs : t.EndsWith vs) :
    ∃ m u, runOn (eventsOf τ) m s = .next u ∧ u.final = true ∧ u.out.map some = vs := by
  induction hleft : t.transfersLeft using Nat.strong_induction_on generalizing n t with
  | _ left ih =>
    subst hleft
    by_cases hfinal : t.final = true
    · obtain ⟨_, _, _, _, hvs⟩ := hs
      obtain ⟨⟨hpos, hp⟩, _⟩ := (State.final_iff t).1 hfinal
      exact ⟨n, t, ht, hfinal, by simpa [State.unanswered, hpos, hp] using hvs⟩
    · have hcloser : ∃ m u, runOn (eventsOf τ) m s = .next u ∧ t.CloserThan vs u := by
        obtain henabled | henabled := hs.enabled hfinal
        · exact eventually_closer hresp honly ht hs henabled
        · exact eventually_closer hacc honly ht hs henabled
      obtain ⟨m, u, hu, hends, hless⟩ := hcloser
      exact ih _ hless hu hends rfl

/-! ## The statements of 70_reset_and_hazards.md -/

/-- An enabled ACCEPT takes the offered request (10_state.md R29). -/
theorem perform_accept_of_ready {s : State} {r : Request} (hc : s.clean = true) (ho : s.offered = some r)
    (hu : s.platform.hasUnit = true) (hq : s.reqReady = true) :
    perform .accept s = .next { s with pending := s.pending ++ [r], position := s.position + 1 } := by
  rw [perform_accept hc, acceptEvent_of_ready ho hu hq]
  rfl

/-- Settles O30: a full queue is not ready; a RESPOND makes room, and at a defined request it keeps the run clean. -/
theorem backPressureUntilRespond : Obligations.BackPressureUntilRespond := by
  intro s r hc hrst hu hdepth ho
  have hfull (h : s.platform.queueDepth ≤ s.pending.length) : s.reqReady = false ∧ perform .accept s = .next s := by
    have hq : s.reqReady = false := by simp [State.reqReady, h]
    exact ⟨hq, by rw [perform_accept hc, acceptEvent_of_not_ready hu hq]⟩
  refine ⟨fun hlen => ?_, fun hone hne => ?_⟩
  · obtain ⟨hq, hacc⟩ := hfull hlen.ge
    refine ⟨hq, hacc, ?_⟩
    rw [perform_respond hc]
    obtain ⟨_, hno⟩ | ⟨q, rest, i, hp, _, _, hresp⟩ | ⟨q, rest, hp, _, _, h5, hresp⟩ := respondEvent_cases s
    · obtain hp | hrst' := hno
      · rw [hp, List.length_nil] at hlen
        omega
      · simp [hrst] at hrst'
    · have hready : (s.retire.deliver (responseOf i)).reqReady = true := by
        simp [hrst, hp, ← hlen]
      exact ⟨_, hresp, hready, fun _ => perform_accept_of_ready (s := s.retire.deliver _) hc ho hu hready⟩
    · refine ⟨_, hresp, by simp [hrst, hp, ← hlen], fun hdef => ?_⟩
      have h4 : q.op.toNat ≤ 4 := hdef q (by simp [hp])
      omega
  · have hsome : 0 < s.pending.length := List.length_pos_iff.2 hne
    exact (hfull (by omega)).2

/-- Settles O40: the pending requests are the ones awaited at the start. -/
theorem takingHostGetsPendingResponses : Obligations.TakingHostGetsPendingResponses := by
  intro τ s hfair htaking honly hc hrst hu hdef
  obtain ⟨n, t, ht, hout⟩ := eventually_delivered (n := 0) (hfair.fairTo htaking) honly hdef rfl
    (show s.Awaits s.pending s.out from ⟨⟨hc, hrst, hu⟩, rfl, List.prefix_rfl⟩)
  exact ⟨n, t, ht, hout ▸ List.prefix_rfl⟩

/-- Settles O41: the request stays offered, and the queue has room for it, until an ACCEPT takes it. -/
theorem offeringHostGetsRequestAccepted : Obligations.OfferingHostGetsRequestAccepted := by
  intro τ s r hfair hoffering honly hc hrst hu hdef hroom ho
  exact eventually_of_fairTo (n := 0) (hfair.fairTo hoffering) honly (fun _ => State.Offers.enabled)
    (fun _ _ _ hC htransfer => htransfer.offers hC) rfl
    (show s.Offers r s.position from ⟨⟨hc, hrst, hu⟩, hdef, hroom, rfl, ho⟩)

/-- Settles O42: each transfer that takes place is one less to make, and a run that has not ended can make one. -/
theorem fairScheduleEndsRun : Obligations.FairScheduleEndsRun := by
  intro τ s ⟨hresp, hacc⟩ htaking hoffering honly ⟨⟨hdepth, _⟩, ⟨hpos, _⟩, _⟩ hc hrst hu hpending htoIssue
  have hdef : ∀ r ∈ s.unanswered, r.op.toNat ≤ 4 := List.forall_mem_append.2 ⟨hpending, htoIssue⟩
  exact eventually_final (n := 0) (hresp.fairTo htaking) (hacc.fairTo hoffering) honly rfl
    ⟨⟨hc, hrst, hu⟩, hdepth, hpos, hdef, rfl⟩

/-- Settles O27: the events of the reset line do not look at the run; ACCEPT and RESPOND wait for the release. -/
theorem resetDropsPendingRequests : Obligations.ResetDropsPendingRequests := by
  refine ⟨fun _ => ⟨rfl, rfl, rfl⟩, fun s hc hrst => ⟨?_, ?_⟩⟩
  · rw [perform_accept hc, acceptEvent_in_reset hrst]
  · rw [perform_respond hc, respondEvent_in_reset hrst]

end Sys2Proof.Machine

/-! SUPPORT. The algebra of CLMUL in the ring of polynomials over the field of two elements, and the place of its top bit;
the statements of 40_clmul.md on its laws. -/

namespace Sys2Proof.Machine

/-- What an instruction responds is its value and nothing else (10_state.md R31). -/
theorem responds_iff {i : Instr} {v : Bits128} : Responds i v ↔ responseOf i = v := by
  refine ⟨fun h => ?_, fun h => h ▸ responds_responseOf i⟩
  have hout := (responds_responseOf i State.reset).symm.trans (h State.reset)
  simpa [State.reset] using hout

/-! ## The ring operations on words -/

theorem toPoly_injective {n : Nat} : Function.Injective (toPoly (n := n)) := by
  refine fun v w h => BitVec.eq_of_getLsbD_eq fun k _ => bitCoeff_injective ?_
  rw [← coeff_toPoly, h, coeff_toPoly]

@[simp] theorem toPoly_zero {n : Nat} : toPoly (0 : BitVec n) = 0 := by
  ext k
  simp

@[simp] theorem toPoly_xor {n : Nat} (v w : BitVec n) : toPoly (v ^^^ w) = toPoly v + toPoly w := by
  ext k
  simp [bitCoeff_xor]

@[simp] theorem toPoly_twoPow {n k : Nat} (hk : k < n) : toPoly (BitVec.twoPow n k) = Polynomial.X ^ k := by
  ext j
  obtain rfl | hj := eq_or_ne k j
  · simp [hk]
  · simp [BitVec.getLsbD_twoPow, Polynomial.coeff_X_pow, hj, hj.symm]

/-- A shift of a zero-extended operand multiplies by a power of `X` as long as no bit leaves the 128. -/
theorem toPoly_zext128_shiftLeft (v : Bits64) {k : Nat} (hk : k ≤ 64) :
    toPoly (zext128 v <<< k) = toPoly v * Polynomial.X ^ k := by
  ext j
  rw [coeff_toPoly, Polynomial.coeff_mul_X_pow', BitVec.getLsbD_shiftLeft, getLsbD_zext128, coeff_toPoly]
  by_cases hj : j < 128
  · obtain hjk | hkj := Nat.lt_or_ge j k
    · simp [hjk, Nat.not_le.2 hjk]
    · simp [hj, hkj, Nat.not_lt.2 hkj]
  · simp [hj, BitVec.getLsbD_of_ge v (j - k) (by omega)]

/-! ## The laws of CLMUL (40_clmul.md R84) -/

theorem clmul_comm (a b : Bits64) : clmul a b = clmul b a :=
  toPoly_injective (by rw [toPoly_clmul, toPoly_clmul, mul_comm])

theorem clmul_zero (a : Bits64) : clmul a 0 = 0 :=
  toPoly_injective (by rw [toPoly_clmul, toPoly_zero, mul_zero, toPoly_zero])

theorem clmul_xor (a b c : Bits64) : clmul a (b ^^^ c) = clmul a b ^^^ clmul a c :=
  toPoly_injective (by simp only [toPoly_clmul, toPoly_xor, mul_add])

theorem clmul_twoPow (a : Bits64) {k : Nat} (hk : k < 64) : clmul a (1#64 <<< k) = zext128 a <<< k :=
  toPoly_injective (by
    rw [toPoly_clmul, ← BitVec.twoPow_eq, toPoly_twoPow hk, toPoly_zext128_shiftLeft a (by omega)])

theorem clmul_one (a : Bits64) : clmul a 1 = zext128 a := by
  simpa using clmul_twoPow a (k := 0) (by decide)

/-- Bit `i` of the operand stands at place `2i` of its dilation, and place `2i + 1` is 0 (41_morton.md R101). -/
theorem getLsbD_dilate_two_mul (a : Bits64) (i : Nat) :
    (dilate a).getLsbD (2 * i) = a.getLsbD i ∧ (dilate a).getLsbD (2 * i + 1) = false :=
  ⟨by simp [getLsbD_dilate], getLsbD_dilate_odd a (by omega)⟩

/-! ## The top bit of a product (40_clmul.md R83) -/

theorem getLsbD_highBit {v : Bits64} (h : v ≠ 0) : v.getLsbD (highBit v) = true :=
  Nat.testBit_log2 fun h0 => h (BitVec.eq_of_toNat_eq h0)

theorem getLsbD_of_highBit_lt (v : Bits64) {k : Nat} (h : highBit v < k) : v.getLsbD k = false :=
  Nat.testBit_lt_two_pow (Nat.lt_log2_self.trans_le (Nat.pow_le_pow_right two_pos h))

/-- The degree of a word is at most `m` when no bit above `m` is set. -/
theorem natDegree_toPoly_le {n m : Nat} {v : BitVec n} (h : ∀ k, m < k → v.getLsbD k = false) :
    (toPoly v).natDegree ≤ m :=
  Polynomial.natDegree_le_iff_coeff_eq_zero.2 fun k hk => by simp [h k hk]

/-- Only the two top places contribute to the sum of their indices. -/
theorem getLsbD_clmul_add {a b : Bits64} {m n : Nat} (ha : (toPoly a).natDegree ≤ m) (hb : (toPoly b).natDegree ≤ n) :
    (clmul a b).getLsbD (m + n) = (a.getLsbD m && b.getLsbD n) := by
  apply bitCoeff_injective
  rw [← coeff_toPoly, toPoly_clmul, Polynomial.coeff_mul_add_eq_of_natDegree_le ha hb, coeff_toPoly, coeff_toPoly,
    bitCoeff_and]

/-- No pair of bits contributes above the sum of the indices of the top places. -/
theorem getLsbD_clmul_of_add_lt {a b : Bits64} {m n k : Nat} (ha : (toPoly a).natDegree ≤ m)
    (hb : (toPoly b).natDegree ≤ n) (hk : m + n < k) : (clmul a b).getLsbD k = false := by
  apply bitCoeff_injective
  rw [← coeff_toPoly, toPoly_clmul, bitCoeff_false]
  exact Polynomial.coeff_eq_zero_of_natDegree_lt ((Polynomial.natDegree_mul_le_of_le ha hb).trans_lt hk)

/-! ## The statements of 40_clmul.md on the laws of CLMUL -/

/-- Settles O2: a 64-bit operand has degree at most 63, and at most the index of its highest set bit. -/
theorem clmulResultWidth : Obligations.ClmulResultWidth := by
  intro a b
  have hle63 (v : Bits64) : (toPoly v).natDegree ≤ 63 := natDegree_toPoly_le fun k hk => BitVec.getLsbD_of_ge v k hk
  have hleHigh (v : Bits64) : (toPoly v).natDegree ≤ highBit v := natDegree_toPoly_le fun _ => getLsbD_of_highBit_lt v
  refine ⟨clmul a b, responds_responseOf (.clmul a b), ?_, ?_, fun ha hb => ⟨?_, fun k hk => ?_⟩⟩
  · exact getLsbD_clmul_of_add_lt (hle63 a) (hle63 b) (by decide)
  · exact getLsbD_clmul_add (hle63 a) (hle63 b)
  · rw [getLsbD_clmul_add (hleHigh a) (hleHigh b), getLsbD_highBit ha, getLsbD_highBit hb, Bool.and_self]
  · exact getLsbD_clmul_of_add_lt (hleHigh a) (hleHigh b) hk

/-- Settles O3: the laws are those of a commutative ring of characteristic 2. -/
theorem clmulAlgebraicLaws : Obligations.ClmulAlgebraicLaws := by
  intro a b c
  refine ⟨⟨?_, ?_⟩, ⟨clmul a b, ?_, ?_⟩, ⟨?_, ?_⟩, fun k hk => ?_, ⟨clmul a b, clmul a c, ?_, ?_, ?_⟩,
    clmul a a, ?_, fun i _ => ?_⟩
  · exact responds_iff.2 ((clmul_comm 0 b).trans (clmul_zero b))
  · exact responds_iff.2 (clmul_zero a)
  · exact responds_responseOf (.clmul a b)
  · exact responds_iff.2 (clmul_comm b a)
  · exact responds_iff.2 (clmul_one a)
  · exact responds_iff.2 ((clmul_comm 1 a).trans (clmul_one a))
  · exact responds_iff.2 (clmul_twoPow a hk)
  · exact responds_responseOf (.clmul a b)
  · exact responds_responseOf (.clmul a c)
  · exact responds_iff.2 (clmul_xor a b c)
  · exact responds_responseOf (.clmul a a)
  · exact getLsbD_dilate_two_mul a i

end Sys2Proof.Machine

/-! SUPPORT. The bits of a MORTON code and its inverse; the width of dilated and interleaved 16-bit operands; the usual
spread step by step; the statements of 41_morton.md on the bits of the responses. -/

namespace Sys2Proof.Machine

/-! ## MORTON interleaves (41_morton.md R103) -/

/-- X stands on the even places of the code, Y on the odd ones. -/
theorem getLsbD_morton (x y : Bits64) (k : Nat) :
    (morton x y).getLsbD k = if 2 ∣ k then x.getLsbD (k / 2) else y.getLsbD (k / 2) := by
  rw [morton, BitVec.getLsbD_or, BitVec.getLsbD_shiftLeft, getLsbD_dilate x]
  by_cases hk : 2 ∣ k
  · by_cases h0 : k = 0
    · simp [h0]
    · simp [hk, getLsbD_dilate_odd y (show ¬ 2 ∣ k - 1 by omega)]
  · rw [getLsbD_dilate, show (k - 1) / 2 = k / 2 by omega]
    by_cases h128 : k < 128
    · simp [hk, h128, show ¬ k < 1 by omega, show 2 ∣ k - 1 by omega]
    · simp [hk, h128, BitVec.getLsbD_of_ge y (k / 2) (by omega)]

@[simp] theorem getLsbD_morton_even (x y : Bits64) (i : Nat) : (morton x y).getLsbD (2 * i) = x.getLsbD i := by
  simp [getLsbD_morton]

@[simp] theorem getLsbD_morton_odd (x y : Bits64) (i : Nat) : (morton x y).getLsbD (2 * i + 1) = y.getLsbD i := by
  rw [getLsbD_morton, if_neg (by omega), show (2 * i + 1) / 2 = i by omega]

/-- The bits of a 128-bit value at the places `2i + r`, gathered into 64 bits. -/
def gatherBits (r : Nat) (m : Bits128) : Bits64 :=
  BitVec.ofFnLE fun i => m.getLsbD (2 * i + r)

theorem getLsbD_gatherBits (r : Nat) (m : Bits128) {i : Nat} (hi : i < 64) :
    (gatherBits r m).getLsbD i = m.getLsbD (2 * i + r) := by
  simp [gatherBits, hi]

theorem morton_gatherBits (m : Bits128) : morton (gatherBits 0 m) (gatherBits 1 m) = m := by
  refine BitVec.eq_of_getLsbD_eq fun k hk => ?_
  rw [getLsbD_morton, getLsbD_gatherBits 0 m (by omega), getLsbD_gatherBits 1 m (by omega)]
  split
  · rw [show 2 * (k / 2) + 0 = k by omega]
  · rw [show 2 * (k / 2) + 1 = k by omega]

theorem gatherBits_morton (x y : Bits64) : gatherBits 0 (morton x y) = x ∧ gatherBits 1 (morton x y) = y := by
  constructor
  · refine BitVec.eq_of_getLsbD_eq fun i hi => ?_
    rw [getLsbD_gatherBits 0 _ hi, Nat.add_zero, getLsbD_morton_even]
  · refine BitVec.eq_of_getLsbD_eq fun i hi => ?_
    rw [getLsbD_gatherBits 1 _ hi, getLsbD_morton_odd]

/-! ## Operands below 2^16 (41_morton.md R108) -/

/-- A value in range has no bit set from place 16 on (41_morton.md R104). -/
theorem getLsbD_of_inRange {v : Bits64} (h : v.toNat < 65536) {k : Nat} (hk : 16 ≤ k) : v.getLsbD k = false :=
  Nat.testBit_lt_two_pow (h.trans_le (Nat.pow_le_pow_right two_pos hk))

theorem dilate_lt_of_inRange {a : Bits64} (h : a.toNat < 65536) : (dilate a).toNat < 2 ^ 32 :=
  Nat.lt_pow_two_of_testBit _ fun k hk => (getLsbD_dilate a k).trans (by
    simp [getLsbD_of_inRange h (show 16 ≤ k / 2 by omega)])

theorem morton_lt_of_inRange {x y : Bits64} (hx : x.toNat < 65536) (hy : y.toNat < 65536) :
    (morton x y).toNat < 2 ^ 32 :=
  Nat.lt_pow_two_of_testBit _ fun k hk => (getLsbD_morton x y k).trans (by
    simp [getLsbD_of_inRange hx (show 16 ≤ k / 2 by omega), getLsbD_of_inRange hy (show 16 ≤ k / 2 by omega)])

/-- Cutting a value to half 0 and extending it again loses nothing when it fits (41_morton.md R109). -/
theorem zext128_respHalf0 {v : Bits128} (h : v.toNat < 2 ^ 32) : zext128 (respHalf0 v) = v := by
  refine BitVec.eq_of_toNat_eq ?_
  simp only [zext128, respHalf0, BitVec.toNat_setWidth, BitVec.extractLsb'_toNat, Nat.shiftRight_zero]
  omega

theorem zext128_dilateMagic {a : Bits64} (h : a.toNat < 65536) : zext128 (dilateMagic a) = dilate a := by
  rw [dilateMagic_of_inRange h, zext128_respHalf0 (dilate_lt_of_inRange h)]

theorem zext128_mortonMagic {x y : Bits64} (hx : x.toNat < 65536) (hy : y.toNat < 65536) :
    zext128 (mortonMagic x y) = morton x y := by
  rw [mortonMagic_of_inRange hx hy, zext128_respHalf0 (morton_lt_of_inRange hx hy)]

/-- Half 0 of a code is composed from the halves 0 of the two dilations (41_morton.md R102). -/
theorem respHalf0_morton (x y : Bits64) :
    respHalf0 (morton x y) = (respHalf0 (dilate y) <<< 1) ||| respHalf0 (dilate x) := by
  have hcut (v : Bits128) : respHalf0 v = v.setWidth 64 := (BitVec.setWidth_eq_extractLsb' (by decide)).symm
  rw [morton, hcut, hcut, hcut, BitVec.setWidth_or, BitVec.setWidth_shiftLeft_of_le (by decide)]

/-! ## The usual spread (41_morton.md R106)

After a step the bits of the operand stand in blocks of `s`, each followed by a gap of `s`; the next step halves the
blocks. Blocks of 1 are the dilation. -/

/-- `v` holds the bits of `a` in blocks of `s` on the even block places of its 32 bits. -/
def SpreadInBlocks (s : Nat) (a : Bits64) (v : BitVec 32) : Prop :=
  ∀ p r, r < s → s * p + r < 32 → v.getLsbD (s * p + r) = (decide (2 ∣ p) && a.getLsbD (s * (p / 2) + r))

/-- `mask` keeps the even ones of the blocks of `s`. -/
abbrev KeepsEvenBlocks (s : Nat) (mask : BitVec 32) : Prop :=
  ∀ k < 32, mask.getLsbD k = decide (2 ∣ k / s)

theorem KeepsEvenBlocks.getLsbD {s : Nat} {mask : BitVec 32} (h : KeepsEvenBlocks s mask) {p r : Nat} (hr : r < s)
    (hk : s * p + r < 32) : mask.getLsbD (s * p + r) = decide (2 ∣ p) := by
  rw [h _ hk, Nat.mul_add_div (Nat.zero_lt_of_lt hr), Nat.div_eq_of_lt hr, Nat.add_zero]

/-- A shift by `s` brings the upper half of each block of `2s` to the start of the gap behind it, and only gaps to the start
of the blocks: at place `2sq + r` it gives the bits that belong there if `q` is odd, else 0. -/
theorem SpreadInBlocks.getLsbD_shiftLeft {s : Nat} {a : Bits64} {v : BitVec 32} (hv : SpreadInBlocks (2 * s) a v)
    {q r : Nat} (hr : r < s) (hk : 2 * s * q + r < 32) :
    (v <<< s).getLsbD (2 * s * q + r) = (!decide (2 ∣ q) && a.getLsbD (s * q + r)) := by
  cases q with
  | zero => simp [hr]
  | succ q =>
    have hplace : 2 * s * (q + 1) + r = 2 * s * q + (s + r) + s := by ring
    rw [hplace] at hk ⊢
    have hshift : (v <<< s).getLsbD (2 * s * q + (s + r) + s) = v.getLsbD (2 * s * q + (s + r)) :=
      (BitVec.getLsbD_shiftLeft v s).trans (by simp [hk])
    rw [hshift, hv q (s + r) (by omega) (by omega)]
    by_cases hq : 2 ∣ q
    · have hsource : 2 * s * (q / 2) + (s + r) = s * (q + 1) + r := by
        rw [mul_comm 2 s, mul_assoc, Nat.mul_div_cancel' hq]
        ring
      simp [hq, hsource, show ¬ 2 ∣ q + 1 by omega]
    · simp [hq, show 2 ∣ q + 1 by omega]

/-- One step of the spread moves the upper half of every block by half a block, into the gap. -/
theorem SpreadInBlocks.halve {s : Nat} {a : Bits64} {v mask : BitVec 32} (hv : SpreadInBlocks (2 * s) a v)
    (hmask : KeepsEvenBlocks s mask) : SpreadInBlocks s a ((v ||| v <<< s) &&& mask) := by
  intro p r hr hk
  rw [BitVec.getLsbD_and, BitVec.getLsbD_or, hmask.getLsbD hr hk]
  obtain ⟨q, rfl | rfl⟩ := p.even_or_odd'
  · rw [show s * (2 * q) = 2 * s * q by ring] at hk ⊢
    rw [hv q r (by omega) hk, hv.getLsbD_shiftLeft hr hk, Nat.mul_div_cancel_left q two_pos]
    by_cases hq : 2 ∣ q
    · have hsource : 2 * s * (q / 2) = s * q := by rw [mul_comm 2 s, mul_assoc, Nat.mul_div_cancel' hq]
      simp [hq, hsource]
    · simp [hq]
  · simp

/-- The low 16 bits of the operand are one block of 16. -/
theorem spreadInBlocks_low_half (a : Bits64) : SpreadInBlocks 16 a (a.setWidth 32 &&& 0xFFFF#32) := by
  intro p r hr hk
  have hmask : KeepsEvenBlocks 16 0xFFFF#32 := by decide
  rw [BitVec.getLsbD_and, hmask.getLsbD hr hk, BitVec.getLsbD_setWidth]
  obtain rfl | rfl : p = 0 ∨ p = 1 := by omega
  · simp [show r < 32 by omega]
  · simp

theorem usualSpread_spreadInBlocks (a : Bits64) : SpreadInBlocks 1 a (usualSpread a) := by
  have h8 := (spreadInBlocks_low_half a).halve (s := 8) (mask := 0x00FF00FF#32) (by decide)
  have h4 := h8.halve (s := 4) (mask := 0x0F0F0F0F#32) (by decide)
  have h2 := h4.halve (s := 2) (mask := 0x33333333#32) (by decide)
  exact h2.halve (s := 1) (mask := 0x55555555#32) (by decide)

/-- Blocks of 1 with gaps of 1 are the dilation: bits 31:0 of it are the usual spread. -/
theorem extractLsb'_dilate_eq_usualSpread (a : Bits64) : (dilate a).extractLsb' 0 32 = usualSpread a := by
  refine BitVec.eq_of_getLsbD_eq fun k hk => ?_
  have hspread := usualSpread_spreadInBlocks a k 0 one_pos (by omega)
  simpa [getLsbD_dilate, hk] using hspread.symm

/-! ## The statements of 41_morton.md on the bits of the responses -/

/-- Settles O4: DILATE is the square by definition, and a square moves bit `i` to place `2i`. -/
theorem squaringIsDilation : Obligations.SquaringIsDilation := fun a b =>
  ⟨dilate a, responds_responseOf (.clmul a a), responds_responseOf (.dilate a b),
    fun i _ => getLsbD_dilate_two_mul a i⟩

/-- Settles O5: gathering the even and the odd bits of a code is the inverse of MORTON on both sides. -/
theorem mortonInterleavesBijectively : Obligations.MortonInterleavesBijectively := by
  refine ⟨fun x y => ⟨morton x y, responds_responseOf (.morton x y), fun i _ => ⟨?_, ?_⟩⟩,
    fun m => ⟨gatherBits 0 m, gatherBits 1 m, ?_, fun i hi => ⟨?_, ?_⟩, fun x' y' hm => ?_⟩⟩
  · exact getLsbD_morton_even x y i
  · exact getLsbD_morton_odd x y i
  · exact responds_iff.2 (morton_gatherBits m)
  · exact getLsbD_gatherBits 0 m hi
  · exact getLsbD_gatherBits 1 m hi
  · obtain rfl : morton x' y' = m := responds_iff.1 hm
    obtain ⟨hx, hy⟩ := gatherBits_morton x' y'
    exact ⟨hx.symm, hy.symm⟩

/-- Settles O8: the values of DILATE and MORTON fit in 32 bits, so the way through 64 bits loses nothing. -/
theorem magicAgreesInRange : Obligations.MagicAgreesInRange := by
  intro x y b b' hx
  refine ⟨⟨dilate x, ?_, ?_, dilate_lt_of_inRange hx⟩, fun hy => ⟨morton x y, ?_, ?_, morton_lt_of_inRange hx hy⟩⟩
  · exact responds_responseOf (.dilate x b)
  · exact responds_iff.2 (zext128_dilateMagic hx)
  · exact responds_responseOf (.morton x y)
  · exact responds_iff.2 (zext128_mortonMagic hx hy)

/-- Settles O9: the magic responses are DILATE's and MORTON's, whose halves 0 compose. -/
theorem mortonMagicComposesInRange : Obligations.MortonMagicComposesInRange := by
  intro x y b b' hx hy
  refine ⟨dilate x, dilate y, morton x y, ?_, ?_, ?_, respHalf0_morton x y⟩
  · exact responds_iff.2 (zext128_dilateMagic hx)
  · exact responds_iff.2 (zext128_dilateMagic hy)
  · exact responds_iff.2 (zext128_mortonMagic hx hy)

/-- Settles O10: in range DILATE_MAGIC responds the dilation. -/
theorem usualSpreadAgreesInRange : Obligations.UsualSpreadAgreesInRange := fun a _ ha =>
  ⟨dilate a, responds_iff.2 (zext128_dilateMagic ha), extractLsb'_dilate_eq_usualSpread a⟩

end Sys2Proof.Machine

/-! SUPPORT. The written request words by their fields, and what a stopped run answers; the statements of 95_test_vectors.md
and 60_exceptions.md on them. -/

namespace Sys2Proof.Machine

/-- Settles O16: each word is that of its three fields, which decode by their `op`. -/
theorem writtenWordsDecode : Obligations.WrittenWordsDecode :=
  ⟨decode_packFields 0 3 2, decode_packFields 1 0xffffffffffffffff 13, decode_packFields 2 1 0,
    decode_packFields 3 0 0xffff, decode_packFields 4 0xffff 0xffff, decode_packFields 5 1 1, decode_packFields 6 0 0,
    decode_packFields 7 0xffffffffffffffff 0xffffffffffffffff⟩

/-- Every event but those of the reset line asks first whether the run is stopped (60_exceptions.md R135). -/
theorem perform_eq_unlessStopped {e : Event} (he : e.isResetLine = false) (s : State) :
    ∃ o, perform e s = unlessStopped s o := by
  cases e with
  | idle => exact ⟨_, rfl⟩
  | accept => exact ⟨_, rfl⟩
  | respond => exact ⟨_, rfl⟩
  | sampleResult => exact ⟨_, rfl⟩
  | reset => cases he
  | assertRst => cases he
  | releaseRst => cases he

/-- A recorded refusal is answered, whatever else is recorded (60_exceptions.md R139). -/
theorem unlessStopped_of_refused {s : State} {r : RecordedRefusal} {n : Nat} (h : s.refused = some (r, n))
    (o : Host.Outcome State Fault Refusal) : unlessStopped s o = .refused .noUnit := by
  simp [unlessStopped, h]

/-- A recorded fault is answered where no refusal is recorded (60_exceptions.md R139). -/
theorem unlessStopped_of_fault {s : State} {f : Fault} {n : Nat} (h : s.fault = some (f, n)) (hr : s.refused = none)
    (o : Host.Outcome State Fault Refusal) : unlessStopped s o = .fault f := by
  simp [unlessStopped, h, hr]

/-- Settles O24: what the event would do does not matter. -/
theorem stoppedRunAnswersItsRecord : Obligations.StoppedRunAnswersItsRecord := by
  intro s e n he
  obtain ⟨o, ho⟩ := perform_eq_unlessStopped he s
  exact ⟨fun r hr => ho.trans (unlessStopped_of_refused hr o), fun f hf hr => ho.trans (unlessStopped_of_fault hf hr o)⟩

end Sys2Proof.Machine
